-- ==== Sys2Proof/Word.lean ====
section
/-! DEFINITION. The storage word of the packer and the command word of the host bus. -/

namespace Sys2Proof

/-- A storage word: "A word is a `W`-bit unsigned integer" (R27). `W` is a parameter of the instance
(R3), so the bound `x < 2 ^ W` is a check (`Memory.wf`), not a part of the type. -/
abbrev Word := Nat

/-- The 80-bit command word `cmd[79:0]` of R39. -/
abbrev Command := BitVec 80

end Sys2Proof
end

