-- ==== Sys2Proof/Syntax.lean ====
section
/-! DEFINITION. The fifteen commands of 30_encoding.md R38, one constructor per row of
spec/opcode_table.json, and the Address type of 42_address_encoder.md R67. -/

namespace Sys2Proof

/-- The natural width of a value operand, the `VW` set {8, 16, 32, 64} of R4 and R41. -/
inductive ValueWidth where
  | w8
  | w16
  | w32
  | w64
deriving DecidableEq, Repr

/-- The width in bits. -/
def ValueWidth.bits : ValueWidth → Nat
  | .w8 => 8
  | .w16 => 16
  | .w32 => 32
  | .w64 => 64

/-- The Address type: "A model represents an Address as a sum type with these five constructors and
nothing else" (R67). A payload is the 29-bit unsigned integer of the operand (R44). -/
inductive Address where
  | broadcast
  | primary (n : BitVec 29)
  | extended (n : BitVec 29)
  | accessory (n : BitVec 29)
  | signal (n : BitVec 29)
deriving DecidableEq, Repr

/-- The abstract command set of R38. -/
inductive Instr where
  /-- `ADD`: append the `len` low bits of `value`, whose natural width is `vw` (R51). -/
  | add (vw : ValueWidth) (value : BitVec 64) (len : BitVec 7)
  /-- `ADDB`: append one bit (R61). -/
  | addb (b : Bool)
  /-- `ADDU8` (R62). -/
  | addu8 (v : BitVec 8)
  /-- `ADDU16` (R63). -/
  | addu16 (v : BitVec 16)
  /-- `ADDU32` (R64). -/
  | addu32 (v : BitVec 32)
  /-- `ADDU64` (R65). -/
  | addu64 (v : BitVec 64)
  /-- `ADDA.BCAST` (R71). -/
  | addaBcast
  /-- `ADDA.PRI` (R72). -/
  | addaPri (n : BitVec 29)
  /-- `ADDA.EXT` (R73). -/
  | addaExt (n : BitVec 29)
  /-- `ADDA.ACC` (R74). -/
  | addaAcc (n : BitVec 29)
  /-- `ADDA.SIG` (R75). -/
  | addaSig (n : BitVec 29)
  /-- `ACMP`: compare two addresses (R82). -/
  | acmp (a b : Address)
  /-- `ATXT.PRI` (R84). -/
  | atxtPri (n : BitVec 29)
  /-- `ATXT.EXT` (R85). -/
  | atxtExt (n : BitVec 29)
  /-- `NEW` (R55). -/
  | new
deriving DecidableEq, Repr

end Sys2Proof
end

