-- ==== Sys2Proof/WellFormed.lean ====
section
/-! DEFINITION. Which terms of `Instr` a command word can carry. Every operand but one has exactly the
width its type gives it; `ADD`'s value is an unsigned integer of `vw` bits (R43). -/

namespace Sys2Proof

/-- `ADD`'s value fits its natural width (R43: `value = DATA[vw-1:0]`; R49: the assembler "rejects a
`value` that does not fit in `vw` bits"). A length of 0 or above `vw` is well formed: it decodes and
aborts when executed (R42). -/
def Instr.wellFormed : Instr → Bool
  | .add vw value _ => decide (value.toNat < 2 ^ vw.bits)
  | .addb _ => true
  | .addu8 _ => true
  | .addu16 _ => true
  | .addu32 _ => true
  | .addu64 _ => true
  | .addaBcast => true
  | .addaPri _ => true
  | .addaExt _ => true
  | .addaAcc _ => true
  | .addaSig _ => true
  | .acmp _ _ => true
  | .atxtPri _ => true
  | .atxtExt _ => true
  | .new => true

end Sys2Proof
end

