-- ==== Sys2Proof/Decode.lean ====
section
/-! DEFINITION. The 80-bit command word (30_encoding.md R39 to R47): its fields, the decoder, total on
every word and rejecting the illegal ones by name, and after it the encoder. -/

namespace Sys2Proof

/-! ### The fields of R39 -/

/-- `OP = cmd[79:76]`. -/
def Command.op (c : Command) : BitVec 4 := c.extractLsb' 76 4
/-- `SEL = cmd[75:73]`. -/
def Command.sel (c : Command) : BitVec 3 := c.extractLsb' 73 3
/-- `Z = cmd[72:71]`. -/
def Command.z (c : Command) : BitVec 2 := c.extractLsb' 71 2
/-- `LEN = cmd[70:64]`. -/
def Command.len (c : Command) : BitVec 7 := c.extractLsb' 64 7
/-- `DATA = cmd[63:0]`. -/
def Command.data (c : Command) : BitVec 64 := c.extractLsb' 0 64

/-- The address operand in `DATA[31:0]` (R44): `ADDA`'s, `ATXT`'s, and `b` of `ACMP`. -/
def Command.addrLow (c : Command) : BitVec 32 := c.extractLsb' 0 32
/-- The address operand in `DATA[63:32]` (R44): `a` of `ACMP`. -/
def Command.addrHigh (c : Command) : BitVec 32 := c.extractLsb' 32 32

/-- The class tag `aop[31:29]` of an address operand (R44). -/
def addrTag (aop : BitVec 32) : BitVec 3 := aop.extractLsb' 29 3
/-- The payload `aop[28:0]` of an address operand (R44). -/
def addrPayload (aop : BitVec 32) : BitVec 29 := aop.extractLsb' 0 29

/-! ### Decoding -/

/-- Why a command word is illegal: the alternatives of R46, by name. -/
inductive IllegalReason where
  /-- `OP` is `0b0000` or `0b1000 .. 0b1111`. -/
  | reservedOp
  /-- `Z` is not zero. -/
  | nonzeroZ
  /-- `OP` is `ADD` or `ADDU*` and `SEL >= 4`. -/
  | reservedSel
  /-- `SEL` is not zero in a command that does not use it. -/
  | nonzeroSel
  /-- `LEN` is not zero in a command other than `ADD`. -/
  | nonzeroLen
  /-- An address tag is 5, 6 or 7. -/
  | reservedTag
  /-- `ATXT` of a class that has no text form (R86). -/
  | noTextForm
deriving DecidableEq, Repr

/-- The operations of the table of R40. -/
inductive Operation where
  | add
  | addb
  | addu
  | adda
  | acmp
  | atxt
  | new
deriving DecidableEq, Repr

/-- R40: the `OP` field selects the operation; `0b0000` and `0b1000 .. 0b1111` are reserved. -/
def operationOf (op : BitVec 4) : Option Operation :=
  if op = 0b0001#4 then some .add
  else if op = 0b0010#4 then some .addb
  else if op = 0b0011#4 then some .addu
  else if op = 0b0100#4 then some .adda
  else if op = 0b0101#4 then some .acmp
  else if op = 0b0110#4 then some .atxt
  else if op = 0b0111#4 then some .new
  else none

/-- R41: the width code of `SEL`; 4 to 7 are reserved. -/
def widthOfSel (sel : BitVec 3) : Option ValueWidth :=
  if sel = 0 then some .w8
  else if sel = 1 then some .w16
  else if sel = 2 then some .w32
  else if sel = 3 then some .w64
  else none

/-- R44, R68: the address an operand carries; the payload bits of `broadcast` are ignored. -/
def addressOf (aop : BitVec 32) : Option Address :=
  if addrTag aop = 0 then some .broadcast
  else if addrTag aop = 1 then some (.primary (addrPayload aop))
  else if addrTag aop = 2 then some (.extended (addrPayload aop))
  else if addrTag aop = 3 then some (.accessory (addrPayload aop))
  else if addrTag aop = 4 then some (.signal (addrPayload aop))
  else none

/-- R43: the value operand `DATA[vw-1:0]`; `DATA[63:vw]` is ignored. -/
def valueOperand (vw : ValueWidth) (data : BitVec 64) : BitVec 64 :=
  (data.setWidth vw.bits).setWidth 64

/-- `ADDU8` to `ADDU64`: the width code picks the command (R40), the value is `DATA[vw-1:0]`. -/
def adduOf (vw : ValueWidth) (data : BitVec 64) : Instr :=
  match vw with
  | .w8 => .addu8 (data.setWidth 8)
  | .w16 => .addu16 (data.setWidth 16)
  | .w32 => .addu32 (data.setWidth 32)
  | .w64 => .addu64 data

/-- `ADDA.*`: the class picks the command (R40, R68). -/
def addaOf (a : Address) : Instr :=
  match a with
  | .broadcast => .addaBcast
  | .primary n => .addaPri n
  | .extended n => .addaExt n
  | .accessory n => .addaAcc n
  | .signal n => .addaSig n

/-- `ATXT.*`: only `primary` and `extended` have a text form (R86). -/
def atxtOf (a : Address) : Except IllegalReason Instr :=
  match a with
  | .primary n => .ok (.atxtPri n)
  | .extended n => .ok (.atxtExt n)
  | .broadcast => .error .noTextForm
  | .accessory _ => .error .noTextForm
  | .signal _ => .error .noTextForm

/-- R45: `SEL` and `LEN` must be zero in a command that does not use them. -/
def withoutSelLen (c : Command) (r : Except IllegalReason Instr) : Except IllegalReason Instr :=
  if c.sel ≠ 0 then .error .nonzeroSel
  else if c.len ≠ 0 then .error .nonzeroLen
  else r

/-- `ADD` (R51). -/
def decodeAdd (c : Command) : Except IllegalReason Instr :=
  match widthOfSel c.sel with
  | none => .error .reservedSel
  | some vw => .ok (.add vw (valueOperand vw c.data) c.len)

/-- `ADDU8` to `ADDU64` (R62 to R65). -/
def decodeAddu (c : Command) : Except IllegalReason Instr :=
  match widthOfSel c.sel with
  | none => .error .reservedSel
  | some vw => if c.len ≠ 0 then .error .nonzeroLen else .ok (adduOf vw c.data)

/-- `ADDA.*` (R71 to R75). -/
def decodeAdda (c : Command) : Except IllegalReason Instr :=
  match addressOf c.addrLow with
  | none => .error .reservedTag
  | some a => .ok (addaOf a)

/-- `ACMP` (R82). -/
def decodeAcmp (c : Command) : Except IllegalReason Instr :=
  match addressOf c.addrHigh, addressOf c.addrLow with
  | some a, some b => .ok (.acmp a b)
  | none, _ => .error .reservedTag
  | some _, none => .error .reservedTag

/-- `ATXT.*` (R84, R85). -/
def decodeAtxt (c : Command) : Except IllegalReason Instr :=
  match addressOf c.addrLow with
  | none => .error .reservedTag
  | some a => atxtOf a

/-- The decoder: every command is decoded from its 80 bits alone (R47), and a word is rejected exactly
when R46 calls it illegal. -/
def decode (c : Command) : Except IllegalReason Instr :=
  match operationOf c.op with
  | none => .error .reservedOp
  | some o =>
    if c.z ≠ 0 then .error .nonzeroZ
    else
      match o with
      | .add => decodeAdd c
      | .addb => withoutSelLen c (.ok (.addb (c.data.getLsbD 0)))
      | .addu => decodeAddu c
      | .adda => withoutSelLen c (decodeAdda c)
      | .acmp => withoutSelLen c (decodeAcmp c)
      | .atxt => withoutSelLen c (decodeAtxt c)
      | .new => withoutSelLen c (.ok .new)

/-! ### Encoding -/

/-- A command word from its fields (R39); `Z` is always zero. -/
def commandWord (op : BitVec 4) (sel : BitVec 3) (len : BitVec 7) (data : BitVec 64) : Command :=
  op ++ sel ++ 0#2 ++ len ++ data

/-- The width code of R41. -/
def ValueWidth.sel : ValueWidth → BitVec 3
  | .w8 => 0
  | .w16 => 1
  | .w32 => 2
  | .w64 => 3

/-- The address operand of R44, the payload bits of `broadcast` zero (R49). -/
def Address.operand : Address → BitVec 32
  | .broadcast => 0#3 ++ 0#29
  | .primary n => 1#3 ++ n
  | .extended n => 2#3 ++ n
  | .accessory n => 3#3 ++ n
  | .signal n => 4#3 ++ n

/-- The `OP` field of an instruction (R40). -/
def Instr.op : Instr → BitVec 4
  | .add _ _ _ => 0b0001#4
  | .addb _ => 0b0010#4
  | .addu8 _ => 0b0011#4
  | .addu16 _ => 0b0011#4
  | .addu32 _ => 0b0011#4
  | .addu64 _ => 0b0011#4
  | .addaBcast => 0b0100#4
  | .addaPri _ => 0b0100#4
  | .addaExt _ => 0b0100#4
  | .addaAcc _ => 0b0100#4
  | .addaSig _ => 0b0100#4
  | .acmp _ _ => 0b0101#4
  | .atxtPri _ => 0b0110#4
  | .atxtExt _ => 0b0110#4
  | .new => 0b0111#4

/-- The `SEL` field of an instruction: the width code of `ADD` and `ADDU*`, else zero (R40, R45). -/
def Instr.sel : Instr → BitVec 3
  | .add vw _ _ => vw.sel
  | .addb _ => 0
  | .addu8 _ => ValueWidth.w8.sel
  | .addu16 _ => ValueWidth.w16.sel
  | .addu32 _ => ValueWidth.w32.sel
  | .addu64 _ => ValueWidth.w64.sel
  | .addaBcast => 0
  | .addaPri _ => 0
  | .addaExt _ => 0
  | .addaAcc _ => 0
  | .addaSig _ => 0
  | .acmp _ _ => 0
  | .atxtPri _ => 0
  | .atxtExt _ => 0
  | .new => 0

/-- The `LEN` field of an instruction: `ADD`'s length, else zero (R42, R45). -/
def Instr.len : Instr → BitVec 7
  | .add _ _ len => len
  | .addb _ => 0
  | .addu8 _ => 0
  | .addu16 _ => 0
  | .addu32 _ => 0
  | .addu64 _ => 0
  | .addaBcast => 0
  | .addaPri _ => 0
  | .addaExt _ => 0
  | .addaAcc _ => 0
  | .addaSig _ => 0
  | .acmp _ _ => 0
  | .atxtPri _ => 0
  | .atxtExt _ => 0
  | .new => 0

/-- The `DATA` field of an instruction, unused bits zero (R43, R44, R49). -/
def Instr.data : Instr → BitVec 64
  | .add _ value _ => value
  | .addb b => (BitVec.ofBool b).setWidth 64
  | .addu8 v => v.setWidth 64
  | .addu16 v => v.setWidth 64
  | .addu32 v => v.setWidth 64
  | .addu64 v => v
  | .addaBcast => 0#32 ++ Address.broadcast.operand
  | .addaPri n => 0#32 ++ (Address.primary n).operand
  | .addaExt n => 0#32 ++ (Address.extended n).operand
  | .addaAcc n => 0#32 ++ (Address.accessory n).operand
  | .addaSig n => 0#32 ++ (Address.signal n).operand
  | .acmp a b => a.operand ++ b.operand
  | .atxtPri n => 0#32 ++ (Address.primary n).operand
  | .atxtExt n => 0#32 ++ (Address.extended n).operand
  | .new => 0

/-- The assembler's canonical word of an instruction (R49). -/
def encode (i : Instr) : Command := commandWord i.op i.sel i.len i.data

/-! ### The words the host's opcode table numbers -/

/-- The command word whose bits are `w`, every bit at or above `nbits` zero. The table numbers the
bits of `cmd[79:0]` itself, bit 0 least significant, and a command is one 80-bit word handed over
whole (R27, R39), so no byte order enters (log 14). -/
def tableCommand (nbits w : Nat) : Command := BitVec.ofNat 80 (w % 2 ^ nbits)

/-- The instruction the decoder reads from a word numbered as the opcode table numbers it. -/
def decodeTableWord (nbits w : Nat) : Option Instr :=
  match decode (tableCommand nbits w) with
  | .ok i => some i
  | .error _ => none

end Sys2Proof
end

