-- ==== Sys2Proof/Config.lean ====
section
/-! DEFINITION. The implementation parameters of 00_scope.md R4: what an instance fixes when it is
created. They are data, so that a claim over all configurations is one claim. -/

namespace Sys2Proof

/-- The parameters of R4 that are no constant of the encoding. -/
structure Config where
  /-- `W`: the storage word width in bits (R3). -/
  wordBits : Nat
  /-- `MAXWORDS`: the largest number of started words; `none` is "unbounded" (R4, R34). -/
  maxWords : Option Nat
  /-- `PRIMARY_LIMIT`: `primary(n)` is valid iff `n < PRIMARY_LIMIT`. -/
  primaryLimit : Nat
  /-- `EXTENDED_LIMIT`: `extended(n)` is valid iff `n < EXTENDED_LIMIT`. -/
  extendedLimit : Nat
  /-- `ACCESSORY_LIMIT`: `accessory(n)` is valid iff `n < ACCESSORY_LIMIT`. -/
  accessoryLimit : Nat
  /-- `SIGNAL_LIMIT`: `signal(n)` is valid iff `n < SIGNAL_LIMIT`. -/
  signalLimit : Nat
  /-- `SIG_INVERT_MID`: whether `signal` transmits its bits 4..2 inverted (R75). -/
  sigInvertMid : Bool
deriving DecidableEq, Repr

/-- The values R4 gives every parameter but `W` and `MAXWORDS`. -/
def Config.ofInstance (wordBits : Nat) (maxWords : Option Nat) : Config where
  wordBits := wordBits
  maxWords := maxWords
  primaryLimit := 127
  extendedLimit := 10240
  accessoryLimit := 512
  signalLimit := 2048
  sigInvertMid := false

/-- The reference instance of R4: `W = 8`, `MAXWORDS` at its default "unbounded". -/
def Config.reference : Config := Config.ofInstance 8 none

/-- A configuration that R3, R4 and R67 admit: `W >= 1`, `MAXWORDS` in {1, 2, ...} or unbounded, and
each limit within the field its class is encoded in ("7-bit", "14-bit", "9-bit", "11-bit").
DEDUCED (log 3): the bounds of the limits are read from the field widths of R67; safe. -/
abbrev Config.legal (c : Config) : Prop :=
  1 ≤ c.wordBits ∧ c.maxWords ≠ some 0 ∧ c.primaryLimit ≤ 2 ^ 7 ∧ c.extendedLimit ≤ 2 ^ 14 ∧
    c.accessoryLimit ≤ 2 ^ 9 ∧ c.signalLimit ≤ 2 ^ 11

/-- The parameters other than `W` and `MAXWORDS` have the values of R4. -/
abbrev Config.specValues (c : Config) : Prop :=
  c.primaryLimit = 127 ∧ c.extendedLimit = 10240 ∧ c.accessoryLimit = 512 ∧
    c.signalLimit = 2048 ∧ c.sigInvertMid = false

end Sys2Proof
end

