-- ==== Sys2Proof/Machine/State.lean ====
section
/-! DEFINITION. The machine's state as plain data (10_state.md R9, R23), the host's side of its ports,
and the reasons a step could stop. -/

namespace Sys2Proof.Machine

/-- The word store and the word being filled: the packer's three working items (R9 to R12). It is the
only memory of this hardware (R24). -/
structure Memory where
  /-- `words`: the completed words, `words[0]` completed first (R10). -/
  words : List Word
  /-- `cur`: the current word, filled from its most significant end (R11). -/
  cur : Word
  /-- `used`: the number of bits placed in `cur` (R12). -/
  used : Nat
deriving DecidableEq, Repr

/-- What the host does to the block between two steps (R6): it presents a command word, or it gives
reset (R101). -/
inductive HostInput where
  | command (c : Command)
  | reset
deriving DecidableEq, Repr

/-- The four abort causes of R87; "5 to 15 reserved, never written". -/
inductive AbortCode where
  /-- Code 1: an address operand's payload is outside its class's valid range (R88). -/
  | addressRange
  /-- Code 2: `ADD` with `len = 0` or `len > vw` (R89). -/
  | fieldLength
  /-- Code 3: the command word is illegal (R90). -/
  | illegalCommand
  /-- Code 4: the command would make `COUNT` exceed `MAXWORDS` (R91). -/
  | capacity
deriving DecidableEq, Repr

/-- The state. `mem`, `aborted` and `abortCode` are the five items of R9; `config` holds the
instance's parameters (R4), which nothing writes; `response` and `pending` are the host's side of the
ports and no state of the spec's (DESIGN CHOICE, logs 1, 2 and 7). -/
structure State where
  /-- The parameters fixed when the packer is created (R3, R4). -/
  config : Config
  /-- `words`, `cur`, `used` (R9). -/
  mem : Memory
  /-- `aborted`: sticky, set by a programmer error, cleared by reset alone (R15). -/
  aborted : Bool
  /-- `abort_code`: which programmer error; meaningful only when `aborted = 1` (R15, R87). -/
  abortCode : BitVec 4
  /-- The 53-bit response (R48) of the last command answered since reset, if there is one. -/
  response : Option (BitVec 53)
  /-- The host's inputs the block has not taken yet, oldest first. -/
  pending : List HostInput
deriving DecidableEq, Repr

/-- Reasons for a step to stop the machine: there are none. Every abort of the spec has a described
entry (R93) and is a next state with `aborted` set; "Outside the four causes of rule R87 no command
can fail" (R96). Nothing raises a fault, which is safe: the model stops nowhere. -/
inductive Fault where
deriving DecidableEq, Repr

/-- Reasons to give an instruction no meaning. -/
inductive Refusal where
  /-- Raised by an arm of `exec` whose instruction is not modelled yet. No arm raises it: all fifteen
  commands have their meaning. Safe: nothing is proved of a refused instruction. -/
  | notModelled (mnemonic : String)
deriving DecidableEq, Repr

/-- An instance right after reset (R23, R101): `words` empty, `cur = 0`, `used = 0`, `aborted = 0`,
`abort_code = 0`; no command has been answered and none is waiting (DESIGN CHOICE, logs 1 and 7). -/
def State.resetWith (config : Config) : State where
  config := config
  mem := { words := [], cur := 0, used := 0 }
  aborted := false
  abortCode := 0
  response := none
  pending := []

/-- The reference instance of R4 (`W = 8`, `MAXWORDS` unbounded) right after reset. -/
def State.reset : State := State.resetWith Config.reference

end Sys2Proof.Machine
end

