-- ==== Sys2Proof/Machine/Store.lean ====
section
/-! DEFINITION. The word store: bit lists and slices (00_scope.md R7), the word-level append of
40_bit_packer.md R52, and the observation functions of 10_state.md R14 to R18 and 20_memory.md R31. -/

namespace Sys2Proof.Machine

/-- `bitsMSB(v, n)`: the bits `v[n-1], ..., v[0]` in that order (R7). -/
def bitsMSB (v : Nat) : Nat → List Bool
  | 0 => []
  | n + 1 => v.testBit n :: bitsMSB v n

/-- The `len`-bit value made of bits `lo + len - 1` down to `lo` of `v` (R7). -/
def sliceBits (v lo len : Nat) : Nat := (v >>> lo) % 2 ^ len

/-- `ceil(a / b)` (R7). -/
def ceilDiv (a b : Nat) : Nat := (a + b - 1) / b

/-- The canonical form of the word store at width `w` (R9, R12, R13): every completed word has `w`
bits, `0 <= used <= w - 1`, `cur` has `w` bits, and its `w - used` low bits are zero. -/
abbrev Memory.wf (w : Nat) (m : Memory) : Prop :=
  (∀ x ∈ m.words, x < 2 ^ w) ∧ m.used < w ∧ m.cur < 2 ^ w ∧ m.cur % 2 ^ (w - m.used) = 0

/-- The packer that holds nothing (R23, R55). -/
def Memory.empty : Memory := { words := [], cur := 0, used := 0 }

/-! ### Writing -/

/-- One round of the loop of R52 with `rem` bits of `v` still to place: the `k` high-order bits of what
remains go directly below the bits already used, and a word that fills is appended. -/
def Memory.placeSlice (w v rem : Nat) (m : Memory) : Memory :=
  let space := w - m.used
  let k := min rem space
  let cur := m.cur ||| (sliceBits v (rem - k) k <<< (space - k))
  if m.used + k = w then { words := m.words ++ [cur], cur := 0, used := 0 }
  else { words := m.words, cur := cur, used := m.used + k }

/-- The loop of R52. `fuel` bounds the rounds; every round places at least one bit when `used < w`, so
`fuel = rem` is enough (R106: it always terminates). -/
def Memory.appendLoop (w v : Nat) : Nat → Nat → Memory → Memory
  | 0, _, m => m
  | fuel + 1, rem, m =>
    if rem = 0 then m
    else Memory.appendLoop w v fuel (rem - min rem (w - m.used)) (m.placeSlice w v rem)

/-- `AppendBits(v, n)`: append the bits `v[n-1], ..., v[0]` to the packed stream, word by word (R52). -/
def Memory.appendBits (w v n : Nat) (m : Memory) : Memory := Memory.appendLoop w v n n m

/-- A field of the Packable contract: "(raw-integer-value, bit-length)" (R60). -/
structure Field where
  value : Nat
  len : Nat
deriving DecidableEq, Repr

/-- The field that carries all bits of a bit vector. -/
def Field.ofBits {n : Nat} (v : BitVec n) : Field := { value := v.toNat, len := n }

/-- "A sequence of fields, pushed in order into a Packer" (R60). -/
def Memory.appendFields (w : Nat) (fields : List Field) (m : Memory) : Memory :=
  fields.foldl (fun m f => m.appendBits w f.value f.len) m

/-- The total number of bits a sequence of fields appends. -/
def totalBits (fields : List Field) : Nat := (fields.map Field.len).sum

/-! ### Observing (reads have no side effect, R31) -/

/-- `N = W * len(words) + used`, the number of bits packed (R14; the output `NBITS` of R18). -/
def Memory.nbits (w : Nat) (m : Memory) : Nat := w * m.words.length + m.used

/-- The bit stream `B` of R14: the completed words' bits and then the `used` bits of `cur`, each word
most significant bit first. -/
def Memory.stream (w : Nat) (m : Memory) : List Bool :=
  m.words.flatMap (fun x => bitsMSB x w) ++ (bitsMSB m.cur w).take m.used

/-- `RESULTS`: the current word is part of it only when a bit has been placed in it (R16). -/
def Memory.results (m : Memory) : List Word :=
  if m.used = 0 then m.words else m.words ++ [m.cur]

/-- `BITSREM`: the unused bits of the last word, 0 when there is none or it is full (R17). -/
def Memory.bitsRem (w : Nat) (m : Memory) : Nat := if m.used = 0 then 0 else w - m.used

/-- `COUNT`: the number of started words (R18). -/
def Memory.count (m : Memory) : Nat := m.results.length

/-- `VALIDLAST`: the number of valid bits in the final word (R18). -/
def Memory.validLast (w : Nat) (m : Memory) : Nat :=
  if m.count = 0 then 0 else if m.used = 0 then w else m.used

/-- `MemRead(i, W)` with `rd_valid` (R31): at an index `i >= COUNT` the word 0 and `rd_valid = 0`
(log 13). -/
def Memory.read (m : Memory) (i : Nat) : Word × Bool :=
  match m.results[i]? with
  | some x => (x, true)
  | none => (0, false)

end Sys2Proof.Machine
end

