-- ==== Sys2Proof/Machine/Flags.lean ====
section
/-! DEFINITION. What sets the one flag of this hardware, `aborted` (10_state.md R15): the abort codes
and the conditions of `FieldLength` and `Capacity` (60_exceptions.md R87, R89, R91). -/

namespace Sys2Proof.Machine

/-- The value written to `abort_code` and returned in `resp.code` (R87). -/
def AbortCode.bits : AbortCode → BitVec 4
  | .addressRange => 1
  | .fieldLength => 2
  | .illegalCommand => 3
  | .capacity => 4

/-- R54, R89: `len = 0` or `len > vw`. -/
def fieldLengthInvalid (vw : ValueWidth) (len : BitVec 7) : Bool :=
  decide (len.toNat = 0 ∨ vw.bits < len.toNat)

/-- R34, R91: appending `t` bits would make `COUNT` exceed `MAXWORDS`,
`ceil((NBITS + t) / W) > MAXWORDS`; never when `MAXWORDS` is unbounded. -/
def State.capacityExceeded (s : State) (t : Nat) : Bool :=
  match s.config.maxWords with
  | none => false
  | some limit => decide (limit < ceilDiv (s.mem.nbits s.config.wordBits + t) s.config.wordBits)

end Sys2Proof.Machine
end

