-- ==== Sys2Proof/Machine/Response.lean ====
section
/-! DEFINITION. The response record `resp[52:0]` of 30_encoding.md R48: its fields and its two forms. -/

namespace Sys2Proof.Machine

/-- The response record. -/
abbrev Response := BitVec 53

/-- `resp[52]` status, `resp[51:48]` code, `resp[47:0]` data (R48). -/
def Response.pack (status : Bool) (code : BitVec 4) (data : BitVec 48) : Response :=
  BitVec.ofBool status ++ code ++ data

/-- `OK` with data (R8, R48). -/
def Response.ok (data : BitVec 48) : Response := Response.pack false 0 data

/-- `ABORT(code)`, its data 0 (R48, R93). -/
def Response.abort (code : BitVec 4) : Response := Response.pack true code 0

/-- `resp[52]`: 0 is `OK`, 1 is `ABORT`. -/
def Response.status (r : Response) : Bool := r.getLsbD 52
/-- `resp[51:48]`. -/
def Response.code (r : Response) : BitVec 4 := r.extractLsb' 48 4
/-- `resp[47:0]`. -/
def Response.data (r : Response) : BitVec 48 := r.extractLsb' 0 48

end Sys2Proof.Machine
end

