-- ==== Sys2Proof/Machine/Operands.lean ====
section
/-! DEFINITION. The address operand: its range (42_address_encoder.md R69), its five bit layouts (R71
to R75), its order and equality (43_address_order_text.md R79 to R81) and its text (R84, R85). -/

namespace Sys2Proof

open Sys2Proof.Machine

/-- The payload, that of `broadcast` taken as 0 (R81). -/
def Address.payload : Address → Nat
  | .broadcast => 0
  | .primary n => n.toNat
  | .extended n => n.toNat
  | .accessory n => n.toNat
  | .signal n => n.toNat

/-- R69: whether the payload lies in its class's valid range. The limits of `accessory` and `signal`
and the exclusion of `primary(127)` are the spec's decisions D10 to D12 (UNVERIFIED, log 10). -/
def Address.inRange (cfg : Config) : Address → Bool
  | .broadcast => true
  | .primary n => decide (n.toNat < cfg.primaryLimit)
  | .extended n => decide (n.toNat < cfg.extendedLimit)
  | .accessory n => decide (n.toNat < cfg.accessoryLimit)
  | .signal n => decide (n.toNat < cfg.signalLimit)

/-! ### Layouts -/

/-- R71: "one 8-bit field, value 0." -/
def broadcastFields : List Field := [Field.ofBits 0x00#8]

/-- R72: "one 8-bit field: top bit 0, low 7 bits = n." -/
def primaryFields (n : BitVec 29) : List Field := [Field.ofBits (0b0#1 ++ n.extractLsb' 0 7)]

/-- R73: `0b11 ++ n[13:8]`, then `n[7:0]`. -/
def extendedFields (n : BitVec 29) : List Field :=
  [Field.ofBits (0b11#2 ++ n.extractLsb' 8 6), Field.ofBits (n.extractLsb' 0 8)]

/-- R74: `0b10 ++ n[8:3]`, then `0b1 ++ ~n[2:0]` in four bits. The spec's decision D13, fitted to one
vector (UNVERIFIED, log 8). -/
def accessoryFields (n : BitVec 29) : List Field :=
  [Field.ofBits (0b10#2 ++ n.extractLsb' 3 6), Field.ofBits (0b1#1 ++ ~~~(n.extractLsb' 0 3))]

/-- R75: the bits `m`, which are `n[4:2]`, or their complement where `SIG_INVERT_MID = 1`. -/
def signalMid (cfg : Config) (n : BitVec 29) : BitVec 3 :=
  if cfg.sigInvertMid then ~~~(n.extractLsb' 2 3) else n.extractLsb' 2 3

/-- R75: `0b10 ++ n[10:5]`, then `0b0 ++ m ++ 0b0 ++ n[1:0] ++ 0b1`. The spec's decision D14, fitted
to one vector (UNVERIFIED, log 9). -/
def signalFields (cfg : Config) (n : BitVec 29) : List Field :=
  [Field.ofBits (0b10#2 ++ n.extractLsb' 5 6),
    Field.ofBits (0b0#1 ++ signalMid cfg n ++ 0b0#1 ++ n.extractLsb' 0 2 ++ 0b1#1)]

/-- The field sequence by which an address describes itself to the packer (R60, R70). -/
def Address.fields (cfg : Config) : Address → List Field
  | .broadcast => broadcastFields
  | .primary n => primaryFields n
  | .extended n => extendedFields n
  | .accessory n => accessoryFields n
  | .signal n => signalFields cfg n

/-! ### Order -/

/-- R79: `broadcast < primary < extended < accessory < signal`. The place of `extended` below
`accessory` and `signal` is the spec's decision D15 (UNVERIFIED, log 11). -/
def Address.rank : Address → Nat
  | .broadcast => 0
  | .primary _ => 1
  | .extended _ => 2
  | .accessory _ => 3
  | .signal _ => 4

/-- R81: `a < b`. -/
def Address.lt (a b : Address) : Bool :=
  decide (a.rank < b.rank ∨ (a.rank = b.rank ∧ a.payload < b.payload))

/-- The outcome of `ACMP` (R48, R82). -/
inductive Comparison where
  | eq
  | lt
  | gt
deriving DecidableEq, Repr

/-- The value of `data[1:0]`: `EQ` 0b00, `LT` 0b01, `GT` 0b10 (R48). -/
def Comparison.bits : Comparison → BitVec 48
  | .eq => 0b00
  | .lt => 0b01
  | .gt => 0b10

/-- R82: `EQ` where the addresses are equal (R80), else `LT` where `a < b` (R81), else `GT`. -/
def Address.compare (a b : Address) : Comparison :=
  if a = b then .eq else if a.lt b then .lt else .gt

/-! ### Text -/

/-- The decimal digits of `n`, most significant first, no leading zeros, "0" for 0; `fuel` bounds
their number. -/
def decimalDigitsFuel : Nat → Nat → List Nat
  | 0, _ => []
  | fuel + 1, n => if n < 10 then [n] else decimalDigitsFuel fuel (n / 10) ++ [n % 10]

/-- The decimal digits of a payload: a 29-bit number has at most nine. -/
def decimalDigits (n : Nat) : List Nat := decimalDigitsFuel 9 n

/-- R85: pad on the left with zeros to at least `width` digits. -/
def padLeft (width : Nat) (digits : List Nat) : List Nat :=
  List.replicate (width - digits.length) 0 ++ digits

/-- R84: the digits of a primary address's text. -/
def primaryText (n : BitVec 29) : List Nat := decimalDigits n.toNat

/-- R85: the digits of an extended address's text, at least four (D16, UNVERIFIED, log 12). -/
def extendedText (n : BitVec 29) : List Nat := padLeft 4 (decimalDigits n.toNat)

/-- R48: the character cell of a digit `d` is the byte `0x30 + d`; a cell past the last is `0x00`
(the coding is "from general knowledge" in the spec: G1, UNVERIFIED, log 12). -/
def textCell (digits : List Nat) (k : Nat) : BitVec 8 :=
  match digits[k]? with
  | some d => BitVec.ofNat 8 (0x30 + d)
  | none => 0

/-- R48: `data[47:40]` is the number of characters, `data[39:0]` five cells, the first in
`data[39:32]`. -/
def textData (digits : List Nat) : BitVec 48 :=
  BitVec.ofNat 8 digits.length ++ textCell digits 0 ++ textCell digits 1 ++ textCell digits 2 ++
    textCell digits 3 ++ textCell digits 4

end Sys2Proof
end

