-- ==== Sys2Proof/Machine/Ops.lean ====
section
/-! DEFINITION. The named operations of the commands on the state: answering, abort entry and what
follows it (60_exceptions.md R93, R94), reset, the one way out of an abort (R95, R101), the checks of
R92 in their order, and packing a sequence of fields. -/

namespace Sys2Proof.Machine

/-! ### The host's ports -/

/-- The command's response (R48). -/
def State.answer (s : State) (r : Response) : State := { s with response := some r }

/-- The next input of the host and the state in which it has been taken (R6, R36; log 1). -/
def State.takeInput (s : State) : Option (HostInput × State) :=
  match s.pending with
  | [] => none
  | e :: rest => some (e, { s with pending := rest })

/-- The host presents a command word as the very next input. -/
def State.present (s : State) (c : Command) : State :=
  { s with pending := .command c :: s.pending }

/-! ### Abort entry, and reset -/

/-- Abort entry: "`aborted <- 1`; `abort_code <- code`; the response is `ABORT` with that code and
`data = 0`; `words`, `cur` and `used` keep the values they had before the command" (R93). -/
def State.raiseAbort (s : State) (code : AbortCode) : State :=
  { s with
    aborted := true
    abortCode := code.bits
    response := some (Response.abort code.bits) }

/-- Reset, the only event that clears `aborted` (R95, R101); it also discards the packer contents. `W`
and the other parameters are fixed when the block is instantiated and stay; the host's later inputs
stay; the response port is empty again (DESIGN CHOICE, log 7). -/
def State.hardReset (s : State) : State :=
  { State.resetWith s.config with pending := s.pending }

/-! ### The checks of R92, in its order -/

/-- R92 step 1 and R94: "While `aborted = 1`, every command, legal or not, `NEW` included, changes no
state and responds `ABORT` with the stored `abort_code`". -/
def State.whenLive (s : State) (body : State → State) : State :=
  if s.aborted then s.answer (Response.abort s.abortCode) else body s

/-- R92 step 2: a word that does not decode (R46, R90). -/
def State.illegalCommand (s : State) : State :=
  s.whenLive fun s => s.raiseAbort .illegalCommand

/-- R92 step 3 for `ADD`: the length check (R54). -/
def State.checkLength (s : State) (vw : ValueWidth) (len : BitVec 7) (body : State → State) : State :=
  if fieldLengthInvalid vw len then s.raiseAbort .fieldLength else body s

/-- R92 step 3 for a command with an address operand: `CheckAddress` (R70). -/
def State.checkAddress (s : State) (a : Address) (body : State → State) : State :=
  if a.inRange s.config then body s else s.raiseAbort .addressRange

/-- The effect of a command of the `ADD` family whose checks all pass: the fields are appended in
order, and the command answers `OK` with data 0 (R48, R60). -/
def State.packed (s : State) (fields : List Field) : State :=
  { s with
    mem := s.mem.appendFields s.config.wordBits fields
    response := some (Response.ok 0) }

/-- R92 steps 4 and 5 for a command of the `ADD` family: capacity is checked once for all bits of the
command before the first of them is appended (R34, R96). -/
def State.packFields (s : State) (fields : List Field) : State :=
  if s.capacityExceeded (totalBits fields) then s.raiseAbort .capacity else s.packed fields

/-- `ADDA.*`: the range check, then the fields of the address's layout (R70 to R75). -/
def State.packAddress (s : State) (a : Address) : State :=
  s.checkAddress a fun s => s.packFields (a.fields s.config)

/-- The packer made new (R55): what a new packer holds, `aborted` untouched. -/
def State.newPacker (s : State) : State :=
  { s with mem := Memory.empty, response := some (Response.ok 0) }

/-! ### The observation functions on a state (R16 to R18, R31, R56) -/

/-- `RESULTS`. -/
def State.results (s : State) : List Word := s.mem.results
/-- `BITSREM`. -/
def State.bitsRem (s : State) : Nat := s.mem.bitsRem s.config.wordBits
/-- `COUNT`. -/
def State.count (s : State) : Nat := s.mem.count
/-- `VALIDLAST`. -/
def State.validLast (s : State) : Nat := s.mem.validLast s.config.wordBits
/-- `NBITS`. -/
def State.nbits (s : State) : Nat := s.mem.nbits s.config.wordBits
/-- `MemRead(i, W)` and `rd_valid`. -/
def State.memRead (s : State) (i : Nat) : Word × Bool := s.mem.read i
/-- The packed bit stream (R14). -/
def State.stream (s : State) : List Bool := s.mem.stream s.config.wordBits

end Sys2Proof.Machine
end

