-- ==== Sys2Proof/Machine/AddressEncoder.lean ====
section
/-! DEFINITION. The DCC address encoder: `ADDA.BCAST`, `ADDA.PRI`, `ADDA.EXT`, `ADDA.ACC`, `ADDA.SIG`
(42_address_encoder.md). -/

namespace Sys2Proof.Machine

/-- `ADDA.BCAST` (R71). -/
def execAddaBcast (s : State) : Host.Outcome State Fault Refusal :=
  .next (s.whenLive fun s => s.packAddress .broadcast)

/-- `ADDA.PRI` (R72). -/
def execAddaPri (n : BitVec 29) (s : State) : Host.Outcome State Fault Refusal :=
  .next (s.whenLive fun s => s.packAddress (.primary n))

/-- `ADDA.EXT` (R73). -/
def execAddaExt (n : BitVec 29) (s : State) : Host.Outcome State Fault Refusal :=
  .next (s.whenLive fun s => s.packAddress (.extended n))

/-- `ADDA.ACC` (R74). -/
def execAddaAcc (n : BitVec 29) (s : State) : Host.Outcome State Fault Refusal :=
  .next (s.whenLive fun s => s.packAddress (.accessory n))

/-- `ADDA.SIG` (R75). -/
def execAddaSig (n : BitVec 29) (s : State) : Host.Outcome State Fault Refusal :=
  .next (s.whenLive fun s => s.packAddress (.signal n))

end Sys2Proof.Machine
end

