-- ==== Sys2Proof/Machine/AddressOrderText.lean ====
section
/-! DEFINITION. Address comparison and text: `ACMP`, `ATXT.PRI`, `ATXT.EXT`
(43_address_order_text.md). "None of them reads or writes the packer state". -/

namespace Sys2Proof.Machine

/-- `ACMP` (R82): both operands are range-checked, `a` first, then the comparison is the response. -/
def execAcmp (a b : Address) (s : State) : Host.Outcome State Fault Refusal :=
  .next (s.whenLive fun s => s.checkAddress a fun s => s.checkAddress b fun s =>
    s.answer (Response.ok (a.compare b).bits))

/-- `ATXT.PRI` (R84). -/
def execAtxtPri (n : BitVec 29) (s : State) : Host.Outcome State Fault Refusal :=
  .next (s.whenLive fun s => s.checkAddress (.primary n) fun s =>
    s.answer (Response.ok (textData (primaryText n))))

/-- `ATXT.EXT` (R85). -/
def execAtxtExt (n : BitVec 29) (s : State) : Host.Outcome State Fault Refusal :=
  .next (s.whenLive fun s => s.checkAddress (.extended n) fun s =>
    s.answer (Response.ok (textData (extendedText n))))

end Sys2Proof.Machine
end

