-- ==== Sys2Proof/Machine/Packer.lean ====
section
/-! DEFINITION. The Bit Packer's commands `ADD` and `NEW` (40_bit_packer.md). -/

namespace Sys2Proof.Machine

/-- `ADD` (R51): the length check, the capacity check, then `AppendBits(value, len)`. -/
def execAdd (vw : ValueWidth) (value : BitVec 64) (len : BitVec 7) (s : State) :
    Host.Outcome State Fault Refusal :=
  .next (s.whenLive fun s => s.checkLength vw len fun s =>
    s.packFields [{ value := value.toNat, len := len.toNat }])

/-- `NEW` (R55): the packer state becomes that of reset; `aborted` is not cleared. -/
def execNew (s : State) : Host.Outcome State Fault Refusal :=
  .next (s.whenLive fun s => s.newPacker)

end Sys2Proof.Machine
end

