-- ==== Sys2Proof/Machine/Primitives.lean ====
section
/-! DEFINITION. The packable primitives `ADDB`, `ADDU8`, `ADDU16`, `ADDU32`, `ADDU64`
(41_packable_primitives.md). -/

namespace Sys2Proof.Machine

/-- `ADDB` (R61): "a boolean contributes exactly 1 bit". -/
def execAddb (b : Bool) (s : State) : Host.Outcome State Fault Refusal :=
  .next (s.whenLive fun s => s.packFields [Field.ofBits (BitVec.ofBool b)])

/-- `ADDU8` (R62): all 8 bits, most significant first. -/
def execAddu8 (v : BitVec 8) (s : State) : Host.Outcome State Fault Refusal :=
  .next (s.whenLive fun s => s.packFields [Field.ofBits v])

/-- `ADDU16` (R63). -/
def execAddu16 (v : BitVec 16) (s : State) : Host.Outcome State Fault Refusal :=
  .next (s.whenLive fun s => s.packFields [Field.ofBits v])

/-- `ADDU32` (R64). -/
def execAddu32 (v : BitVec 32) (s : State) : Host.Outcome State Fault Refusal :=
  .next (s.whenLive fun s => s.packFields [Field.ofBits v])

/-- `ADDU64` (R65). -/
def execAddu64 (v : BitVec 64) (s : State) : Host.Outcome State Fault Refusal :=
  .next (s.whenLive fun s => s.packFields [Field.ofBits v])

end Sys2Proof.Machine
end

