-- ==== Sys2Proof/Machine/Dispatch.lean ====
section
/-! DEFINITION. One arm per command of 30_encoding.md R38, each a direct call of its meaning. -/

namespace Sys2Proof.Machine

def exec (i : Instr) (s : State) : Host.Outcome State Fault Refusal :=
  match i with
  | .add vw value len => Sys2Proof.Machine.execAdd vw value len s
  | .addb b => Sys2Proof.Machine.execAddb b s
  | .addu8 v => Sys2Proof.Machine.execAddu8 v s
  | .addu16 v => Sys2Proof.Machine.execAddu16 v s
  | .addu32 v => Sys2Proof.Machine.execAddu32 v s
  | .addu64 v => Sys2Proof.Machine.execAddu64 v s
  | .addaBcast => Sys2Proof.Machine.execAddaBcast s
  | .addaPri n => Sys2Proof.Machine.execAddaPri n s
  | .addaExt n => Sys2Proof.Machine.execAddaExt n s
  | .addaAcc n => Sys2Proof.Machine.execAddaAcc n s
  | .addaSig n => Sys2Proof.Machine.execAddaSig n s
  | .acmp a b => Sys2Proof.Machine.execAcmp a b s
  | .atxtPri n => Sys2Proof.Machine.execAtxtPri n s
  | .atxtExt n => Sys2Proof.Machine.execAtxtExt n s
  | .new => Sys2Proof.Machine.execNew s

end Sys2Proof.Machine
end

