-- ==== Sys2Proof/Machine/Step.lean ====
section
/-! DEFINITION. One step: the block takes the host's next input and executes it to completion
(00_scope.md R5, R6; 20_memory.md R30). -/

namespace Sys2Proof.Machine

/-- `step : State x Command -> State x Response` (R5) with the command taken from `pending` and the
response left in `response` (log 1). A word that does not decode raises `IllegalCommand` (R90). With
no input from the host nothing happens (DESIGN CHOICE, log 5). -/
def step (s : State) : Host.Outcome State Fault Refusal :=
  match s.takeInput with
  | none => .next s
  | some (.reset, s') => .next s'.hardReset
  | some (.command c, s') =>
    match decode c with
    | .ok i => exec i s'
    | .error _ => .next s'.illegalCommand

/-- `s` with the command word numbered as spec/opcode_table.json numbers it presented as the very next
input: the commands of this hardware come from the host, not from a memory (R36; log 1). -/
def State.withFetchWord (s : State) (nbits w : Nat) : State := s.present (tableCommand nbits w)

end Sys2Proof.Machine
end

