-- ==== Sys2Proof/Safety.lean ====
section
/-! DEFINITION. What counts as a good state and as the result of a run (60_exceptions.md R94,
70_reset_and_hazards.md R107), and the invariant every step keeps. -/

namespace Sys2Proof.Machine

/-- "The final state is good exactly when `aborted = 0`" (R107): the aborted state "is never a final
state" (R94, D29). -/
def State.good (s : State) : Bool := !s.aborted

/-- What a run produced, "the pair (`RESULTS`, `BITSREM`)" (R107); an aborted block has produced
nothing, its outputs "carry no meaning" (R56, R94). -/
def State.artifact (s : State) : Option (List Word × Nat) :=
  if s.good then some (s.results, s.bitsRem) else none

/-- The response port agrees with the abort flag: after an abort it holds `ABORT` with the stored code
(R93, R94), and while there is no abort an answered command has answered `OK` with code 0 (R48). -/
def State.responseAgrees (s : State) : Bool :=
  match s.aborted, s.response with
  | true, r => decide (r = some (Response.abort s.abortCode))
  | false, none => true
  | false, some r => !Response.status r && Response.code r == 0

/-- The store holds at most `MAXWORDS` started words (R34). -/
def State.withinCapacity (s : State) : Bool :=
  match s.config.maxWords with
  | none => true
  | some limit => decide (s.count ≤ limit)

/-- The abort code is 0 while there is no abort and one of 1 to 4 after one (R23, R87). -/
def State.abortCodeAgrees (s : State) : Bool :=
  match s.aborted with
  | false => decide (s.abortCode = 0)
  | true => decide (1 ≤ s.abortCode.toNat ∧ s.abortCode.toNat ≤ 4)

/-- What is true of an instance in every state a host can observe: its parameters are legal, the word
store has its canonical form (R12, R13), the abort code is 0 without an abort and one of 1 to 4 with
one (R23, R87), the store is within its capacity (R34), and the response agrees with the flag. -/
abbrev State.Inv (s : State) : Prop :=
  s.config.legal ∧ s.mem.wf s.config.wordBits ∧ s.abortCodeAgrees = true ∧
    s.withinCapacity = true ∧ s.responseAgrees = true

end Sys2Proof.Machine
end

