-- ==== Sys2Proof/Certificates/Slice0/Obligations.lean ====
section
/-! DEFINITION. The statements for the provers. The notions below say what the rules say in the rules'
own terms (the bit stream of R14, the literal codes of R87, the bits of a command word of R39), apart
from the operations of the model. Wherever a statement speaks of `pending` or of the field `response`,
it speaks of fields of the model's own that stand for the host's ports (logs 1 and 7). -/

namespace Sys2Proof.Machine

/-! ### Notions the statements share -/

/-- Abort entry (R93) with code `k`: `aborted <- 1`, `abort_code <- k`, the response is `ABORT(k)`, and
nothing else changes. -/
def AbortsWith (s : State) (k : BitVec 4) (t : State) : Prop :=
  t = { s with aborted := true, abortCode := k, response := some (Response.abort k) }

/-- The command answered `OK` with data `d` and changed nothing else. -/
def OnlyAnswers (s : State) (d : BitVec 48) (t : State) : Prop :=
  t = { s with response := some (Response.ok d) }

/-- The command appended `bits` to the packed bit stream and answered `OK` with data 0: the new word
store is in its canonical form, its bit stream is the old one followed by `bits` (which determines
it, R14), and nothing else changed but the response. -/
def Appends (s : State) (bits : List Bool) (t : State) : Prop :=
  t.mem.wf s.config.wordBits ∧ t.mem.stream s.config.wordBits = s.stream ++ bits ∧
    t = { s with mem := t.mem, response := some (Response.ok 0) }

/-- R34: `n` more bits do not make `COUNT` exceed `MAXWORDS`. -/
def Fits (s : State) (n : Nat) : Prop :=
  ∀ limit, s.config.maxWords = some limit → (s.nbits + n) ⌈/⌉ s.config.wordBits ≤ limit

/-- What a command does that appends `bits` once its operand checks have passed (R34, R51, R96): the
`Capacity` abort, code 4, where the bits do not fit, else the append. -/
def PacksOrOverflows (i : Instr) (s : State) (bits : List Bool) : Prop :=
  (Fits s bits.length → ∃ t, exec i s = .next t ∧ Appends s bits t) ∧
    (¬Fits s bits.length → ∃ t, exec i s = .next t ∧ AbortsWith s 4 t)

/-- The address operand `aop` carries the address (the table of R44): the tag in `aop[31:29]`, the
payload in `aop[28:0]`, ignored for `broadcast`. -/
def CarriesAddress (aop : BitVec 32) : Address → Prop
  | .broadcast => aop.extractLsb' 29 3 = 0
  | .primary n => aop.extractLsb' 29 3 = 1 ∧ aop.extractLsb' 0 29 = n
  | .extended n => aop.extractLsb' 29 3 = 2 ∧ aop.extractLsb' 0 29 = n
  | .accessory n => aop.extractLsb' 29 3 = 3 ∧ aop.extractLsb' 0 29 = n
  | .signal n => aop.extractLsb' 29 3 = 4 ∧ aop.extractLsb' 0 29 = n

/-- R70: `CheckAddress` fails. -/
def OutOfRange (cfg : Config) : Address → Prop
  | .broadcast => False
  | .primary n => cfg.primaryLimit ≤ n.toNat
  | .extended n => cfg.extendedLimit ≤ n.toNat
  | .accessory n => cfg.accessoryLimit ≤ n.toNat
  | .signal n => cfg.signalLimit ≤ n.toNat

/-- The addresses an instruction carries as operands (R70). -/
def addressOperands : Instr → List Address
  | .add _ _ _ => []
  | .addb _ => []
  | .addu8 _ => []
  | .addu16 _ => []
  | .addu32 _ => []
  | .addu64 _ => []
  | .addaBcast => [.broadcast]
  | .addaPri n => [.primary n]
  | .addaExt n => [.extended n]
  | .addaAcc n => [.accessory n]
  | .addaSig n => [.signal n]
  | .acmp a b => [a, b]
  | .atxtPri n => [.primary n]
  | .atxtExt n => [.extended n]
  | .new => []

/-- The integer `key(a) = rank(va) * 2^29 + na` of R81 (for `broadcast`, 0). -/
def addressKey : Address → Nat
  | .broadcast => 0
  | .primary n => 1 * 2 ^ 29 + n.toNat
  | .extended n => 2 * 2 ^ 29 + n.toNat
  | .accessory n => 3 * 2 ^ 29 + n.toNat
  | .signal n => 4 * 2 ^ 29 + n.toNat

/-- The list of bits of a bit string given as single bits, first bit first. -/
def bitsOf (n : BitVec 29) (positions : List Nat) : List Bool := positions.map fun j => n.getLsbD j

/-- The decimal digits of a number, most significant first, no leading zeros, `[0]` for 0 (R84). -/
def decimalOf (n : Nat) : List Nat := if n = 0 then [0] else (Nat.digits 10 n).reverse

/-- The text layout of R48: `data[47:40]` is the number of characters, cell `k` in
`data[39-8k : 32-8k]` is `0x30 + d` for the `k`-th digit and `0x00` past the last. -/
def CarriesText (d : BitVec 48) (digits : List Nat) : Prop :=
  1 ≤ digits.length ∧ digits.length ≤ 5 ∧ (d.extractLsb' 40 8).toNat = digits.length ∧
    ∀ k < 5, (d.extractLsb' (32 - 8 * k) 8).toNat =
      if k < digits.length then 0x30 + digits.getD k 0 else 0

/-- R46: the eight conditions under which a command word is illegal, on the bits of the word. -/
def IllegalWord (c : Command) : Prop :=
  let op := (c.extractLsb' 76 4).toNat
  let sel := (c.extractLsb' 73 3).toNat
  let z := (c.extractLsb' 71 2).toNat
  let len := (c.extractLsb' 64 7).toNat
  let tagA := (c.extractLsb' 61 3).toNat
  let tagB := (c.extractLsb' 29 3).toNat
  (op = 0 ∨ 8 ≤ op) ∨ z ≠ 0 ∨ ((op = 1 ∨ op = 3) ∧ 4 ≤ sel) ∨
    ((op ≠ 1 ∧ op ≠ 3) ∧ sel ≠ 0) ∨ (op ≠ 1 ∧ len ≠ 0) ∨ ((op = 4 ∨ op = 6) ∧ 5 ≤ tagB) ∨
    (op = 5 ∧ (5 ≤ tagA ∨ 5 ≤ tagB)) ∨ (op = 6 ∧ (tagB = 0 ∨ tagB = 3 ∨ tagB = 4))

/-- The `IllegalCommand` clause of a command's rule: a live block answers a word with this `OP` whose
`SEL`, `Z`, `LEN` or address tags (`DATA[63:61]`, `DATA[31:29]`) the command does not admit with abort
entry, code 3. -/
def OtherWordsAreIllegal (op : Nat) (admits : (sel z len tagA tagB : Nat) → Prop) : Prop :=
  ∀ s c rest, s.aborted = false → s.pending = .command c :: rest → (c.extractLsb' 76 4).toNat = op →
    ¬admits (c.extractLsb' 73 3).toNat (c.extractLsb' 71 2).toNat (c.extractLsb' 64 7).toNat
      (c.extractLsb' 61 3).toNat (c.extractLsb' 29 3).toNat →
    ∃ t, step s = .next t ∧ AbortsWith { s with pending := rest } 3 t

/-- The operands of one legal `ADD`: `1 <= len <= vw` (R42), the value of `vw` bits (R43). -/
structure AddOperands where
  vw : ValueWidth
  value : BitVec 64
  len : BitVec 7

/-- The operands are those of a legal `ADD`. -/
def AddOperands.legal (a : AddOperands) : Prop :=
  a.value.toNat < 2 ^ a.vw.bits ∧ 1 ≤ a.len.toNat ∧ a.len.toNat ≤ a.vw.bits

/-- The instruction. -/
def AddOperands.instr (a : AddOperands) : Instr := .add a.vw a.value a.len

/-- The bits it packs. -/
def AddOperands.bits (a : AddOperands) : List Bool := bitsMSB a.value.toNat a.len.toNat

/-- Two states agree on all the spec gives the machine: the parameters and the five items of R9. -/
def AgreeOnSpecState (s s' : State) : Prop :=
  s.config = s'.config ∧ s.mem = s'.mem ∧ s.aborted = s'.aborted ∧ s.abortCode = s'.abortCode

/-- The command appended the words `new` to a store that stands at a word boundary, answered `OK` with
data 0, and changed nothing else. -/
def ExtendsWords (s : State) (new : List Word) (t : State) : Prop :=
  t = { s with
        mem := { words := s.mem.words ++ new, cur := 0, used := 0 }
        response := some (Response.ok 0) }

end Sys2Proof.Machine

open Sys2Proof Sys2Proof.Machine

/-! ### Reset and the shape of a step -/

/-- R23: the state after reset and the outputs it shows, for every instance. -/
def Obligations.ResetStateValues : Prop :=
  ∀ cfg : Config,
    let s := State.resetWith cfg
    s.mem.words = [] ∧ s.mem.cur = 0 ∧ s.mem.used = 0 ∧ s.aborted = false ∧ s.abortCode = 0 ∧
      s.results = [] ∧ s.bitsRem = 0 ∧ s.count = 0 ∧ s.validLast = 0 ∧ s.nbits = 0

/-- R101 and R95: the reset input puts every item of state at its reset value, discarding the packer
contents, and it is the only event that clears `aborted`. That the host's later inputs stay
(`t.pending = rest`) is the model's choice (DESIGN CHOICE, log 1). -/
def Obligations.ResetAloneLeavesTheAbortedState : Prop :=
  (∀ s rest, s.pending = .reset :: rest → ∃ t, step s = .next t ∧
      t.mem.words = [] ∧ t.mem.cur = 0 ∧ t.mem.used = 0 ∧ t.aborted = false ∧ t.abortCode = 0 ∧
      t.config = s.config ∧ t.pending = rest) ∧
    ∀ s t, step s = .next t → s.aborted = true → t.aborted = false →
      ∃ rest, s.pending = .reset :: rest

/-- The invariant holds after reset of every legal instance; `State.reset` is the one with `W = 8` and
`MAXWORDS` unbounded (which instance it is, is the model's choice, log 2). The bounds of the limits
in `Config.legal` are log 3 (DEDUCED), and that the response port is empty right after reset, which
the invariant's clause on it uses, is the model's choice (DESIGN CHOICE, log 7). -/
def Obligations.InvariantHoldsAfterReset : Prop :=
  (∀ cfg : Config, cfg.legal → (State.resetWith cfg).Inv) ∧ State.reset.Inv ∧
    State.reset = State.resetWith (Config.ofInstance 8 none)

/-- Every step keeps the invariant, from every state that has it: legal parameters, the canonical form
of the word store (R12, R13), a legal abort code (R87), `COUNT <= MAXWORDS` (R34), and a response that
agrees with the abort flag (R93, R94). The bounds of the limits are log 3, the response port's field
is the model's (log 7). -/
def Obligations.StepKeepsInvariant : Prop :=
  ∀ s t : State, s.Inv → step s = .next t → t.Inv

/-- "A command always completes" (70_reset_and_hazards.md section 4): no step ends in a fault or a
refusal, from any state whatever. -/
def Obligations.EveryStepCompletes : Prop := ∀ s : State, ∃ t, step s = .next t

/-- A step takes the host's next input and runs the instruction its word decodes to; nothing is added
around it. The list of inputs is the model's (log 1). -/
def Obligations.StepRunsTheDecodedInstruction : Prop :=
  ∀ s c rest i, s.pending = .command c :: rest → decode c = .ok i → i.wellFormed = true →
    step s = exec i { s with pending := rest }

/-- A table word presented by `withFetchWord` is what the very next step runs (logs 1 and 14). -/
def Obligations.StepRunsThePresentedTableWord : Prop :=
  ∀ (s : State) (nbits w : Nat) (i : Instr), decodeTableWord nbits w = some i →
    step (s.withFetchWord nbits w) = exec i s

/-- The model's own choice (log 5): with no input from the host a step changes nothing. -/
def Obligations.StepWithoutInputChangesNothing : Prop :=
  ∀ s : State, s.pending = [] → step s = .next s

/-- A step takes exactly its input (the list of inputs is the model's, log 1) and never writes a
parameter of the instance. -/
def Obligations.StepConsumesOneInputAndKeepsParameters : Prop :=
  ∀ s t : State, step s = .next t → t.config = s.config ∧ t.pending = s.pending.tail

/-- "There is no hidden state" (10_state.md section 5): what a step does to the items of R9, and what
it answers a command, depends on those items, the parameters and the input alone, not on the last
response or on later inputs. -/
def Obligations.StepDependsOnSpecStateAndInputOnly : Prop :=
  ∀ (s s' t t' : State) (e : HostInput) (rest rest' : List HostInput),
    AgreeOnSpecState s s' → s.pending = e :: rest → s'.pending = e :: rest' →
    step s = .next t → step s' = .next t' → AgreeOnSpecState t t' ∧ t.response = t'.response

/-! ### Aborts -/

/-- R94: while `aborted = 1` every one of the 2^80 words, and every instruction, only answers
`ABORT` with the stored code. With it, that the state is never a good (final) one and shows no result:
`State.good` and `State.artifact` are the model's own notions (log 6, DESIGN CHOICE, after R94 and
R107; log 15, DEDUCED, after D29). -/
def Obligations.AbortedBlockOnlyAnswersTheStoredCode : Prop :=
  ∀ s : State, s.aborted = true →
    (∀ c rest, s.pending = .command c :: rest → step s = .next
      { s with pending := rest, response := some (Response.abort s.abortCode) }) ∧
    (∀ i, exec i s = .next { s with response := some (Response.abort s.abortCode) }) ∧
    s.good = false ∧ s.artifact = none

/-- The abort is sticky along every run without reset: however many steps follow, the flag, the first
abort's code and the frozen word store stay. -/
def Obligations.AbortIsStickyAlongRuns : Prop :=
  ∀ (k : Nat) (s t : State), s.aborted = true → HostInput.reset ∉ s.pending.take k →
    Host.Core.run core k s = .next t →
    t.aborted = true ∧ t.abortCode = s.abortCode ∧ t.mem = s.mem

/-- R93: whenever a step of a live block leaves it aborted, it did exactly abort entry with one of the
four codes of R87: the word store is as before the command, and nothing is saved. -/
def Obligations.AbortEntryIsPrecise : Prop :=
  ∀ s t : State, s.aborted = false → step s = .next t → t.aborted = true →
    ∃ k : BitVec 4, 1 ≤ k.toNat ∧ k.toNat ≤ 4 ∧
      AbortsWith { s with pending := s.pending.tail } k t

/-- R46 and R90: an illegal word raises `IllegalCommand`, code 3, and changes no packer state; no other
word leaves that code. -/
def Obligations.IllegalWordsAndOnlyTheyRaiseIllegalCommand : Prop :=
  ∀ s c rest, s.aborted = false → s.pending = .command c :: rest →
    (IllegalWord c → ∃ t, step s = .next t ∧ AbortsWith { s with pending := rest } 3 t) ∧
    (¬IllegalWord c → ∀ t, step s = .next t → t.aborted = true → t.abortCode ≠ 3)

/-- R70: every command with an address operand first checks every address operand, and raises
`AddressRange`, code 1, if one is out of range, before doing anything else (so also where the bits
would not fit). -/
def Obligations.OutOfRangeAddressAbortsFirst : Prop :=
  ∀ i s, s.aborted = false → (∃ a ∈ addressOperands i, OutOfRange s.config a) →
    ∃ t, exec i s = .next t ∧ AbortsWith s 1 t

/-- R69: with the parameter values of R4, the valid payloads are `primary` 0 to 126, `extended` 0 to
10239, `accessory` 0 to 511, `signal` 0 to 2047, and `broadcast` is always valid (the spec's
decisions D10 to D12, log 10). -/
def Obligations.ValidPayloadsAreThoseOfTheTable : Prop :=
  ∀ cfg : Config, cfg.specValues →
    Address.broadcast.inRange cfg = true ∧
    ∀ n : BitVec 29,
      ((Address.primary n).inRange cfg = true ↔ n.toNat ≤ 126) ∧
      ((Address.extended n).inRange cfg = true ↔ n.toNat ≤ 10239) ∧
      ((Address.accessory n).inRange cfg = true ↔ n.toNat ≤ 511) ∧
      ((Address.signal n).inRange cfg = true ↔ n.toNat ≤ 2047)

/-! ### Encoding -/

/-- Decode and encode agree: the encoded word of every well-formed instruction decodes to it. -/
def Obligations.DecodeOfEncodeIsTheInstruction : Prop :=
  ∀ i : Instr, i.wellFormed = true → decode (encode i) = .ok i

/-- The decoder rejects exactly the words that R46 calls illegal. -/
def Obligations.DecoderRejectsExactlyTheIllegalWords : Prop :=
  ∀ c : Command, (∃ r, decode c = .error r) ↔ IllegalWord c

/-- Whatever word is decoded, the instruction is well formed: of `ADD`, its value is below `2^vw`. That
the decoder leaves the bits of the value above the natural width zero is log 17 (DEDUCED). -/
def Obligations.DecodedInstructionIsWellFormed : Prop :=
  ∀ (c : Command) (i : Instr), decode c = .ok i → i.wellFormed = true

/-- "`DATA` bits a command does not use are ignored" (30_encoding.md section 3): two words with the
same decode fields whose used `DATA` bits agree decode alike, command by command. -/
def Obligations.UnusedDataBitsAreIgnored : Prop :=
  ∀ c c' : Command, c.extractLsb' 64 16 = c'.extractLsb' 64 16 →
    let op := (c.extractLsb' 76 4).toNat
    let sel := (c.extractLsb' 73 3).toNat
    ((op = 1 ∨ op = 3) → (∀ j < 8 * 2 ^ sel, c.getLsbD j = c'.getLsbD j) → decode c = decode c') ∧
    (op = 2 → c.getLsbD 0 = c'.getLsbD 0 → decode c = decode c') ∧
    ((op = 4 ∨ op = 6) → c.extractLsb' 0 32 = c'.extractLsb' 0 32 → decode c = decode c') ∧
    (op = 4 → c.extractLsb' 29 3 = 0 → c'.extractLsb' 29 3 = 0 → decode c = decode c') ∧
    (op = 7 → decode c = decode c')

/-- Words written out in spec/95_test_vectors.md decode to the commands they stand for, one or two of
each family. -/
def Obligations.SpecWordsDecodeToTheirCommands : Prop :=
  decodeTableWord 80 0x10030000000000000005 = some (.add .w8 5 3) ∧
  decodeTableWord 80 0x120900000000000001FF = some (.add .w16 0x1FF 9) ∧
  decodeTableWord 80 0x20000000000000000001 = some (.addb true) ∧
  decodeTableWord 80 0x3200000000000000ABCD = some (.addu16 0xABCD) ∧
  decodeTableWord 80 0x400000000000400000D2 = some (.addaExt 210) ∧
  decodeTableWord 80 0x50002000007D40000003 = some (.acmp (.primary 125) (.extended 3)) ∧
  decodeTableWord 80 0x60000000000040000003 = some (.atxtExt 3) ∧
  decodeTableWord 80 0x70000000000000000000 = some .new

/-- The response record of R48 as a number: `OK` is its data, `ABORT(k)` is the bit 52, the code from
bit 48 up, and data 0. -/
def Obligations.ResponseRecordLayout : Prop :=
  (∀ d : BitVec 48, (Response.ok d).toNat = d.toNat) ∧
    ∀ k : BitVec 4, (Response.abort k).toNat = 2 ^ 52 + k.toNat * 2 ^ 48

/-! ### The bit packer -/

/-- The word-level loop appends exactly the bits `v[n-1], ..., v[0]` to the bit stream: the two forms
of 40_bit_packer.md section 1 describe the same transition, for every width and every state in
canonical form. -/
def Obligations.AppendLoopIsStreamAppend : Prop :=
  ∀ (w v n : Nat) (m : Memory), m.wf w →
    (m.appendBits w v n).stream w = m.stream w ++ bitsMSB v n

/-- The bit stream and the triple (`words`, `cur`, `used`) determine each other (10_state.md section
2): two stores in canonical form with the same stream are equal, the stream has `NBITS` bits, and
`used` is their number modulo `W`. -/
def Obligations.StreamDeterminesTheStore : Prop :=
  ∀ (w : Nat) (m m' : Memory), m.wf w → m'.wf w →
    (m.stream w = m'.stream w → m = m') ∧ (m.stream w).length = m.nbits w ∧
      m.words.length = m.nbits w / w ∧ m.used = m.nbits w % w

/-- Composability of packing (40_bit_packer.md section 4): two fields back to back leave the same store
as the one field that is their concatenation, without bound on the lengths. -/
def Obligations.PackingIsComposable : Prop :=
  ∀ (w f1 l1 f2 l2 : Nat) (m : Memory), m.wf w → f2 < 2 ^ l2 →
    (m.appendBits w f1 l1).appendBits w f2 l2 = m.appendBits w ((f1 <<< l2) ||| f2) (l1 + l2)

/-- R51 and R54, `ADD`: its encoding, and `IllegalCommand` for a reserved `SEL` or a nonzero `Z`;
`FieldLength`, code 2, for a length of 0 or above the natural width, checked before the capacity; else
the `len` low bits of the value are appended, most significant first, or `Capacity` is raised. -/
def Obligations.AddAppendsTheLowBitsOfItsValue : Prop :=
  OtherWordsAreIllegal 1 (fun sel z _ _ _ => sel < 4 ∧ z = 0) ∧
  ∀ (vw : ValueWidth) (value : BitVec 64) (len : BitVec 7),
    (∀ data : BitVec 64, data.toNat % 2 ^ vw.bits = value.toNat →
      decode (commandWord 0b0001 vw.sel len data) = .ok (.add vw value len)) ∧
    ∀ s : State, s.Inv → s.aborted = false →
      (len.toNat = 0 ∨ vw.bits < len.toNat →
        ∃ t, exec (.add vw value len) s = .next t ∧ AbortsWith s 2 t) ∧
      (1 ≤ len.toNat → len.toNat ≤ vw.bits →
        PacksOrOverflows (.add vw value len) s (bitsMSB value.toNat len.toNat))

/-- The masking law (40_bit_packer.md section 1): values that agree in their `len` low bits pack alike,
and the natural width has no effect beyond the length check. -/
def Obligations.AddIgnoresBitsAboveItsLength : Prop :=
  ∀ (s : State) (vw vw' : ValueWidth) (v v' : BitVec 64) (len : BitVec 7),
    len.toNat ≤ vw.bits → len.toNat ≤ vw'.bits →
    v.toNat % 2 ^ len.toNat = v'.toNat % 2 ^ len.toNat →
    exec (.add vw v len) s = exec (.add vw' v' len) s

/-- R55, `NEW`: its encoding with `DATA` ignored, and `IllegalCommand` for a nonzero `SEL`, `Z` or
`LEN`; the packer becomes what it is after reset, nothing
else changes, and it answers `OK`; an aborted block ignores it. -/
def Obligations.NewEmptiesThePackerOnly : Prop :=
  OtherWordsAreIllegal 7 (fun sel z len _ _ => sel = 0 ∧ z = 0 ∧ len = 0) ∧
  (∀ data : BitVec 64, decode (commandWord 0b0111 0 0 data) = .ok .new) ∧
    ∀ s : State,
      (s.aborted = false → exec .new s = .next
        { s with
          mem := { words := [], cur := 0, used := 0 }
          response := some (Response.ok 0) }) ∧
      (s.aborted = true → exec .new s = .next
        { s with response := some (Response.abort s.abortCode) }) ∧
      (State.resetWith s.config).mem = { words := [], cur := 0, used := 0 }

/-- Growth and stability (40_bit_packer.md section 4): a step on any input but reset and a `NEW` word
keeps every completed word and every packed bit; it lowers no `NBITS`. -/
def Obligations.OnlyNewAndResetRemovePackedBits : Prop :=
  ∀ s t : State, s.Inv → step s = .next t →
    (∀ rest, s.pending ≠ .reset :: rest) →
    (∀ c rest, s.pending = .command c :: rest → decode c ≠ .ok .new) →
    s.mem.words <+: t.mem.words ∧ s.stream <+: t.stream ∧ s.nbits ≤ t.nbits

/-- Any run of legal `ADD`s, of any lengths, packs exactly the concatenation of their fields, from any
state of an unbounded live block (40_bit_packer.md section 4: "the final state depends only on the
concatenation of all fields"). -/
def Obligations.RunOfAddsPacksTheConcatenation : Prop :=
  ∀ (adds : List AddOperands) (s : State) (rest : List HostInput),
    s.Inv → s.aborted = false → s.config.maxWords = none → (∀ a ∈ adds, a.legal) →
    s.pending = adds.map (fun a => .command (encode a.instr)) ++ rest →
    ∃ t, Host.Core.run core adds.length s = .next t ∧ t.aborted = false ∧ t.pending = rest ∧
      t.config = s.config ∧ t.mem.wf s.config.wordBits ∧
      t.stream = s.stream ++ adds.flatMap AddOperands.bits

/-! ### Packable primitives -/

/-- R61, `ADDB`: its encoding with `DATA[63:1]` ignored, and `IllegalCommand` for a nonzero `SEL`, `Z`
or `LEN`; it appends one bit, or raises `Capacity`. -/
def Obligations.AddbAppendsOneBit : Prop :=
  OtherWordsAreIllegal 2 (fun sel z len _ _ => sel = 0 ∧ z = 0 ∧ len = 0) ∧
  ∀ b : Bool,
    (∀ data : BitVec 64, data.getLsbD 0 = b →
      decode (commandWord 0b0010 0 0 data) = .ok (.addb b)) ∧
    ∀ s : State, s.Inv → s.aborted = false → PacksOrOverflows (.addb b) s [b]

/-- R62 to R65, `ADDU8` to `ADDU64`: the encodings with the bits above the value ignored, and
`IllegalCommand` for a reserved `SEL` or a nonzero `Z` or `LEN`; each appends all bits of its value,
most significant first, or raises `Capacity`. -/
def Obligations.AdduAppendsAllBitsOfItsValue : Prop :=
  OtherWordsAreIllegal 3 (fun sel z len _ _ => sel < 4 ∧ z = 0 ∧ len = 0) ∧
  (∀ (v : BitVec 8) (hi : BitVec 56),
    decode (commandWord 0b0011 0 0 (hi ++ v)) = .ok (.addu8 v)) ∧
  (∀ (v : BitVec 16) (hi : BitVec 48),
    decode (commandWord 0b0011 1 0 (hi ++ v)) = .ok (.addu16 v)) ∧
  (∀ (v : BitVec 32) (hi : BitVec 32),
    decode (commandWord 0b0011 2 0 (hi ++ v)) = .ok (.addu32 v)) ∧
  (∀ v : BitVec 64, decode (commandWord 0b0011 3 0 v) = .ok (.addu64 v)) ∧
  ∀ s : State, s.Inv → s.aborted = false →
    (∀ v : BitVec 8, PacksOrOverflows (.addu8 v) s (bitsMSB v.toNat 8)) ∧
    (∀ v : BitVec 16, PacksOrOverflows (.addu16 v) s (bitsMSB v.toNat 16)) ∧
    (∀ v : BitVec 32, PacksOrOverflows (.addu32 v) s (bitsMSB v.toNat 32)) ∧
    (∀ v : BitVec 64, PacksOrOverflows (.addu64 v) s (bitsMSB v.toNat 64))

/-- The expansions of the primitives (30_encoding.md section 6): `ADDB` and `ADDU*` do what the `ADD`
of the value at its full width does, from every state. -/
def Obligations.PrimitivesDoWhatTheirExpansionsDo : Prop :=
  ∀ s : State,
    (∀ b : Bool, exec (.addb b) s = exec (.add .w8 ((BitVec.ofBool b).setWidth 64) 1) s) ∧
    (∀ v : BitVec 8, exec (.addu8 v) s = exec (.add .w8 (v.setWidth 64) 8) s) ∧
    (∀ v : BitVec 16, exec (.addu16 v) s = exec (.add .w16 (v.setWidth 64) 16) s) ∧
    (∀ v : BitVec 32, exec (.addu32 v) s = exec (.add .w32 (v.setWidth 64) 32) s) ∧
    (∀ v : BitVec 64, exec (.addu64 v) s = exec (.add .w64 v 64) s)

/-! ### The address encoder -/

/-- R71, `ADDA.BCAST`: its encoding with every other `DATA` bit ignored, and `IllegalCommand` for a word
of `ADDA` with a nonzero `SEL`, `Z` or `LEN` or a reserved tag; it appends eight zeros, or raises
`Capacity`, and nothing else. -/
def Obligations.AddaBcastAppendsEightZeros : Prop :=
  OtherWordsAreIllegal 4 (fun sel z len _ tag => sel = 0 ∧ z = 0 ∧ len = 0 ∧ tag < 5) ∧
  (∀ (hi : BitVec 32) (aop : BitVec 32), CarriesAddress aop .broadcast →
    decode (commandWord 0b0100 0 0 (hi ++ aop)) = .ok .addaBcast) ∧
  ∀ s : State, s.Inv → s.aborted = false →
    PacksOrOverflows .addaBcast s (List.replicate 8 false)

/-- R72, `ADDA.PRI`, at `PRIMARY_LIMIT = 127`: its encoding, with the illegal words of `ADDA`;
`AddressRange` for `n >= 127`; else the eight bits `0, n[6], ..., n[0]`, which spell `n`. -/
def Obligations.AddaPriAppendsItsSevenBits : Prop :=
  OtherWordsAreIllegal 4 (fun sel z len _ tag => sel = 0 ∧ z = 0 ∧ len = 0 ∧ tag < 5) ∧
  ∀ n : BitVec 29,
    (∀ (hi : BitVec 32) (aop : BitVec 32), CarriesAddress aop (.primary n) →
      decode (commandWord 0b0100 0 0 (hi ++ aop)) = .ok (.addaPri n)) ∧
    ∀ s : State, s.Inv → s.aborted = false → s.config.primaryLimit = 127 →
      (127 ≤ n.toNat → ∃ t, exec (.addaPri n) s = .next t ∧ AbortsWith s 1 t) ∧
      (n.toNat ≤ 126 →
        PacksOrOverflows (.addaPri n) s (false :: bitsOf n [6, 5, 4, 3, 2, 1, 0]) ∧
        false :: bitsOf n [6, 5, 4, 3, 2, 1, 0] = bitsMSB n.toNat 8)

/-- R73, `ADDA.EXT`, at `EXTENDED_LIMIT = 10240`: its encoding, with the illegal words of `ADDA`;
`AddressRange` for `n >= 10240`; else the sixteen bits `1, 1, n[13], ..., n[0]`. -/
def Obligations.AddaExtAppendsItsFourteenBits : Prop :=
  OtherWordsAreIllegal 4 (fun sel z len _ tag => sel = 0 ∧ z = 0 ∧ len = 0 ∧ tag < 5) ∧
  ∀ n : BitVec 29,
    (∀ (hi : BitVec 32) (aop : BitVec 32), CarriesAddress aop (.extended n) →
      decode (commandWord 0b0100 0 0 (hi ++ aop)) = .ok (.addaExt n)) ∧
    ∀ s : State, s.Inv → s.aborted = false → s.config.extendedLimit = 10240 →
      (10240 ≤ n.toNat → ∃ t, exec (.addaExt n) s = .next t ∧ AbortsWith s 1 t) ∧
      (n.toNat ≤ 10239 →
        PacksOrOverflows (.addaExt n) s
          ([true, true] ++ bitsOf n [13, 12, 11, 10, 9, 8, 7, 6, 5, 4, 3, 2, 1, 0]))

/-- R74, `ADDA.ACC`, at `ACCESSORY_LIMIT = 512`: its encoding, with the illegal words of `ADDA`;
`AddressRange` for `n >= 512`; else the twelve bits `1, 0, n[8], ..., n[3], 1, ~n[2], ~n[1], ~n[0]`.
The layout beyond `n = 310` is the spec's decision D13 (log 8), the range its decision D10 (log 10).
-/
def Obligations.AddaAccAppendsItsTwelveBits : Prop :=
  OtherWordsAreIllegal 4 (fun sel z len _ tag => sel = 0 ∧ z = 0 ∧ len = 0 ∧ tag < 5) ∧
  ∀ n : BitVec 29,
    (∀ (hi : BitVec 32) (aop : BitVec 32), CarriesAddress aop (.accessory n) →
      decode (commandWord 0b0100 0 0 (hi ++ aop)) = .ok (.addaAcc n)) ∧
    ∀ s : State, s.Inv → s.aborted = false → s.config.accessoryLimit = 512 →
      (512 ≤ n.toNat → ∃ t, exec (.addaAcc n) s = .next t ∧ AbortsWith s 1 t) ∧
      (n.toNat ≤ 511 →
        PacksOrOverflows (.addaAcc n) s
          ([true, false] ++ bitsOf n [8, 7, 6, 5, 4, 3] ++ [true] ++
            (bitsOf n [2, 1, 0]).map (!·)))

/-- R75, `ADDA.SIG`, at `SIGNAL_LIMIT = 2048`: its encoding, with the illegal words of `ADDA`;
`AddressRange` for `n >= 2048`; else the sixteen bits `1, 0, n[10], ..., n[5], 0, m, 0, n[1], n[0],
1`, where `m` is `n[4:2]`, inverted if `SIG_INVERT_MID = 1`. The layout beyond `n = 1134` is the
spec's decision D14 (log 9), the range its decision D11 (log 10). -/
def Obligations.AddaSigAppendsItsSixteenBits : Prop :=
  OtherWordsAreIllegal 4 (fun sel z len _ tag => sel = 0 ∧ z = 0 ∧ len = 0 ∧ tag < 5) ∧
  ∀ n : BitVec 29,
    (∀ (hi : BitVec 32) (aop : BitVec 32), CarriesAddress aop (.signal n) →
      decode (commandWord 0b0100 0 0 (hi ++ aop)) = .ok (.addaSig n)) ∧
    ∀ s : State, s.Inv → s.aborted = false → s.config.signalLimit = 2048 →
      (2048 ≤ n.toNat → ∃ t, exec (.addaSig n) s = .next t ∧ AbortsWith s 1 t) ∧
      (n.toNat ≤ 2047 →
        PacksOrOverflows (.addaSig n) s
          ([true, false] ++ bitsOf n [10, 9, 8, 7, 6, 5] ++ [false] ++
            (bitsOf n [4, 3, 2]).map (xor s.config.sigInvertMid) ++ [false] ++
            bitsOf n [1, 0] ++ [true]))

/-- The expansions of `ADDA.*` (30_encoding.md section 6, 42_address_encoder.md section 2): where an
address command succeeds, it leaves the word store that the `ADD` commands of its expansion leave one
after the other. The accessory and signal expansions rest on the spec's D13 and D14 (logs 8, 9). -/
def Obligations.AddressCommandsDoWhatTheirExpansionsDo : Prop :=
  ∀ (s t : State) (n : BitVec 29), s.Inv → s.aborted = false →
    let v := n.toNat
    let add8 (x len : Nat) : Instr := .add .w8 (BitVec.ofNat 64 x) (BitVec.ofNat 7 len)
    let both (i j : Instr) : Prop :=
      ∃ u u', exec i s = .next u ∧ exec j u = .next u' ∧ t.mem = u'.mem
    t.aborted = false →
    (exec .addaBcast s = .next t → exec (add8 0 8) s = .next t) ∧
    (exec (.addaPri n) s = .next t → exec (add8 (v &&& 0x7F) 8) s = .next t) ∧
    (exec (.addaExt n) s = .next t → both (add8 (0xC0 ||| v >>> 8) 8) (add8 (v &&& 0xFF) 8)) ∧
    (exec (.addaAcc n) s = .next t → both (add8 (0x80 ||| v >>> 3) 8) (add8 (15 - v % 8) 4)) ∧
    (exec (.addaSig n) s = .next t → s.config.sigInvertMid = false →
      both (add8 (0x80 ||| v >>> 5) 8)
        (add8 ((v / 4 % 8) <<< 4 ||| (v &&& 3) <<< 1 ||| 1) 8))

/-- What each class leaves in a block of eight-bit words that stands at a word boundary and has room
(42_address_encoder.md section 3): the words of the document's examples, in general. The accessory
and signal words rest on the spec's D13 and D14 (logs 8, 9). -/
def Obligations.AddressWordsFromAByteBoundary : Prop :=
  ∀ (s : State) (n : BitVec 29), s.Inv → s.aborted = false → s.config.wordBits = 8 →
    s.config.specValues → s.mem.used = 0 → Fits s 16 →
    let v := n.toNat
    (∃ t, exec .addaBcast s = .next t ∧ ExtendsWords s [0x00] t) ∧
    (v ≤ 126 → ∃ t, exec (.addaPri n) s = .next t ∧ ExtendsWords s [v] t) ∧
    (v ≤ 10239 → ∃ t, exec (.addaExt n) s = .next t ∧
      ExtendsWords s [0xC0 + v / 256, v % 256] t) ∧
    (v ≤ 2047 → ∃ t, exec (.addaSig n) s = .next t ∧
      ExtendsWords s [0x80 + v / 32, v / 4 % 8 * 16 + v % 4 * 2 + 1] t) ∧
    (v ≤ 511 → ∀ x : BitVec 64, ∃ t u, exec (.addaAcc n) s = .next t ∧ t.bitsRem = 4 ∧
      t.results = s.results ++ [0x80 + v / 8, (15 - v % 8) * 16] ∧
      exec (.add .w8 x 4) t = .next u ∧ u.bitsRem = 0 ∧
      u.results = s.results ++ [0x80 + v / 8, (15 - v % 8) * 16 + x.toNat % 16])

/-- The encoding is injective inside each class and not across classes (42_address_encoder.md section
3): two valid addresses of one class with the same fields are equal, and `broadcast` packs what
`primary(0)` packs. It rests on the layouts of D13 and D14 (logs 8, 9) and on log 3. -/
def Obligations.LayoutsAreInjectiveInsideEachClass : Prop :=
  ∀ cfg : Config, cfg.legal →
    (∀ a b : Address, a.rank = b.rank → a.inRange cfg = true → b.inRange cfg = true →
      a.fields cfg = b.fields cfg → a = b) ∧
    Address.broadcast.fields cfg = (Address.primary 0).fields cfg

/-! ### Order and text -/

/-- R82, with the equality of R80 and the order of R81, `ACMP`: its encoding, and `IllegalCommand`
for a nonzero `SEL`, `Z` or `LEN` or a reserved tag; `AddressRange` if an operand is out of range;
else it answers `EQ` (0) for equal addresses, `LT` (1) where `key(a) < key(b)`, `GT` (2) where
`key(b) < key(a)`, and changes nothing else. The rank of `extended` below `accessory` and `signal`
is the spec's decision D15 (log 11). -/
def Obligations.AcmpAnswersTheOrderOfTheKeys : Prop :=
  OtherWordsAreIllegal 5
    (fun sel z len tagA tagB => sel = 0 ∧ z = 0 ∧ len = 0 ∧ tagA < 5 ∧ tagB < 5) ∧
  ∀ a b : Address,
    (∀ aop bop : BitVec 32, CarriesAddress aop a → CarriesAddress bop b →
      decode (commandWord 0b0101 0 0 (aop ++ bop)) = .ok (.acmp a b)) ∧
    ∀ s : State, s.aborted = false →
      (OutOfRange s.config a ∨ OutOfRange s.config b →
        ∃ t, exec (.acmp a b) s = .next t ∧ AbortsWith s 1 t) ∧
      (¬OutOfRange s.config a → ¬OutOfRange s.config b →
        ∃ t, exec (.acmp a b) s = .next t ∧
          (a = b → OnlyAnswers s 0 t) ∧
          (addressKey a < addressKey b → OnlyAnswers s 1 t) ∧
          (addressKey b < addressKey a → OnlyAnswers s 2 t) ∧
          (addressKey a = addressKey b → a = b))

/-- The order is a strict total order on addresses (43_address_order_text.md section 1), read off the
comparison `ACMP` answers: `EQ` exactly for equal addresses, `LT` one way exactly where `GT` the
other, and `LT` transitive. It rests on D15 for `extended` (log 11). -/
def Obligations.ComparisonIsAStrictTotalOrder : Prop :=
  ∀ a b c : Address,
    (a.compare b = .eq ↔ a = b) ∧ (a.compare b = .lt ↔ b.compare a = .gt) ∧
      (a.compare b = .lt → b.compare c = .lt → a.compare c = .lt)

/-- R84, `ATXT.PRI`, at `PRIMARY_LIMIT = 127`: its encoding, with the illegal words of `ATXT` (R86:
a class with no text form among them); `AddressRange` for `n >= 127`; else it answers the decimal
digits of `n` without leading zeros, and changes nothing else (the digit bytes are the spec's G1,
log 12). -/
def Obligations.AtxtPriAnswersThePlainDecimal : Prop :=
  OtherWordsAreIllegal 6
    (fun sel z len _ tag => sel = 0 ∧ z = 0 ∧ len = 0 ∧ (tag = 1 ∨ tag = 2)) ∧
  ∀ n : BitVec 29,
    (∀ (hi : BitVec 32) (aop : BitVec 32), CarriesAddress aop (.primary n) →
      decode (commandWord 0b0110 0 0 (hi ++ aop)) = .ok (.atxtPri n)) ∧
    ∀ s : State, s.aborted = false → s.config.primaryLimit = 127 →
      (127 ≤ n.toNat → ∃ t, exec (.atxtPri n) s = .next t ∧ AbortsWith s 1 t) ∧
      (n.toNat ≤ 126 → ∃ t d, exec (.atxtPri n) s = .next t ∧ OnlyAnswers s d t ∧
        CarriesText d (decimalOf n.toNat))

/-- R85, `ATXT.EXT`, at `EXTENDED_LIMIT = 10240`: its encoding, with the illegal words of `ATXT`;
`AddressRange` for `n >= 10240`; else it answers the decimal digits of `n` padded on the left with
zeros to at least four, and changes nothing else (five digits from 10000 on: the spec's decision
D16, log 12). -/
def Obligations.AtxtExtAnswersThePaddedDecimal : Prop :=
  OtherWordsAreIllegal 6
    (fun sel z len _ tag => sel = 0 ∧ z = 0 ∧ len = 0 ∧ (tag = 1 ∨ tag = 2)) ∧
  ∀ n : BitVec 29,
    (∀ (hi : BitVec 32) (aop : BitVec 32), CarriesAddress aop (.extended n) →
      decode (commandWord 0b0110 0 0 (hi ++ aop)) = .ok (.atxtExt n)) ∧
    ∀ s : State, s.aborted = false → s.config.extendedLimit = 10240 →
      (10240 ≤ n.toNat → ∃ t, exec (.atxtExt n) s = .next t ∧ AbortsWith s 1 t) ∧
      (n.toNat ≤ 10239 → ∃ t d, exec (.atxtExt n) s = .next t ∧ OnlyAnswers s d t ∧
        CarriesText d ((decimalOf n.toNat).leftpad 4 0))

/-! ### The outputs -/

/-- R16 and R17: `RESULTS` holds the current word exactly when a bit is in it; `BITSREM` is 0 when
`used = 0` and `W - used` otherwise, equivalently `(W - used) mod W`, and at most `W - 1`. -/
def Obligations.ResultsAndBitsRemOfTheStore : Prop :=
  ∀ (w : Nat) (m : Memory), m.wf w →
    (m.used = 0 → m.results = m.words ∧ m.bitsRem w = 0) ∧
    (0 < m.used → m.results = m.words ++ [m.cur] ∧ m.bitsRem w = w - m.used) ∧
    m.bitsRem w = (w - m.used) % w ∧ m.bitsRem w ≤ w - 1

/-- The derived outputs (10_state.md section 4): `COUNT = ceil(N / W)`, `NBITS = W * COUNT - BITSREM`,
`VALIDLAST = W - BITSREM` where a word has been started and 0 otherwise. -/
def Obligations.CountNbitsAndValidLast : Prop :=
  ∀ (w : Nat) (m : Memory), m.wf w →
    m.count = m.nbits w ⌈/⌉ w ∧ m.nbits w = w * m.count - m.bitsRem w ∧
      (m.count = 0 → m.validLast w = 0) ∧ (0 < m.count → m.validLast w = w - m.bitsRem w)

/-- R25: the bit at stream position `p` lies in word `p div W` of `RESULTS` at bit position
`W - 1 - (p mod W)`. -/
def Obligations.StreamPositionInResults : Prop :=
  ∀ (w : Nat) (m : Memory), m.wf w → ∀ p < m.nbits w, ∃ x : Word,
    m.results[p / w]? = some x ∧ (m.stream w)[p]? = some (x.testBit (w - 1 - p % w))

/-- R26: sending `RESULTS[0]` from bit `W - 1` down to bit 0, then `RESULTS[1]`, and so on, and
stopping after `NBITS` bits, sends the bit stream. -/
def Obligations.SerialisedResultsAreTheStream : Prop :=
  ∀ (w : Nat) (m : Memory), m.wf w →
    (m.results.flatMap (fun x => bitsMSB x w)).take (m.nbits w) = m.stream w

/-- R31, the read port: below `COUNT` the word of `RESULTS` with `rd_valid = 1`, at and above it the
word 0 with `rd_valid = 0` (the model's choice, DESIGN CHOICE, log 13: R31 gives that answer and lets
a model refuse such a read instead). A read is a function of the state, so it leaves it unchanged. -/
def Obligations.ReadPortReadsResults : Prop :=
  ∀ (s : State) (i : Nat),
    (i < s.count → ∃ x, s.results[i]? = some x ∧ s.memRead i = (x, true)) ∧
      (s.count ≤ i → s.memRead i = (0, false))
end

