-- ==== Sys2Proof/Laws/Bits.lean ====
section
/-! SUPPORT. A slice that lies in the upper part of an appended pair of bit vectors. -/

namespace Sys2Proof

/-- Bits above the low part of an appended pair. -/
theorem extractLsb'_append_skip {a b : Nat} (x : BitVec a) (y : BitVec b) (k n : Nat) :
    (x ++ y).extractLsb' (b + k) n = x.extractLsb' k n := by
  rw [BitVec.extractLsb'_append_eq_of_le (Nat.le_add_right b k), Nat.add_sub_cancel_left]

/-- One bit above the low part of an appended pair. -/
theorem getLsbD_append_skip {a b : Nat} (x : BitVec a) (y : BitVec b) (k : Nat) :
    (x ++ y).getLsbD (b + k) = x.getLsbD k := by
  rw [BitVec.getLsbD_append, if_neg (by omega), Nat.add_sub_cancel_left]

end Sys2Proof
end

