-- ==== Sys2Proof/Laws/Decode.lean ====
section
/-! SUPPORT. The fields of a command word built from its fields, and of an address operand. -/

namespace Sys2Proof

variable (op : BitVec 4) (sel : BitVec 3) (len : BitVec 7) (data : BitVec 64)

/-- The bits of a command word above `DATA`. -/
theorem extractLsb'_commandWord (k n : Nat) :
    (commandWord op sel len data).extractLsb' (64 + k) n =
      (op ++ sel ++ 0#2 ++ len).extractLsb' k n :=
  extractLsb'_append_skip (op ++ sel ++ 0#2 ++ len) data k n

@[simp] theorem op_commandWord : Command.op (commandWord op sel len data) = op :=
  (extractLsb'_commandWord op sel len data 12 4).trans <|
    (extractLsb'_append_skip (op ++ sel ++ 0#2) len 5 4).trans <|
      (extractLsb'_append_skip (op ++ sel) 0#2 3 4).trans BitVec.extractLsb'_append_eq_left

@[simp] theorem sel_commandWord : Command.sel (commandWord op sel len data) = sel :=
  (extractLsb'_commandWord op sel len data 9 3).trans <|
    (extractLsb'_append_skip (op ++ sel ++ 0#2) len 2 3).trans <|
      (extractLsb'_append_skip (op ++ sel) 0#2 0 3).trans BitVec.extractLsb'_append_eq_right

@[simp] theorem z_commandWord : Command.z (commandWord op sel len data) = 0 :=
  (extractLsb'_commandWord op sel len data 7 2).trans <|
    (extractLsb'_append_skip (op ++ sel ++ 0#2) len 0 2).trans BitVec.extractLsb'_append_eq_right

@[simp] theorem len_commandWord : Command.len (commandWord op sel len data) = len :=
  (extractLsb'_commandWord op sel len data 0 7).trans BitVec.extractLsb'_append_eq_right

@[simp] theorem data_commandWord : Command.data (commandWord op sel len data) = data :=
  BitVec.extractLsb'_append_eq_right (a := op ++ sel ++ 0#2 ++ len)

/-- `DATA[31:0]` through the `DATA` field. -/
theorem addrLow_eq (c : Command) : Command.addrLow c = c.data.extractLsb' 0 32 := by
  ext j hj
  simp [Command.addrLow, Command.data]

/-- `DATA[63:32]` through the `DATA` field. -/
theorem addrHigh_eq (c : Command) : Command.addrHigh c = c.data.extractLsb' 32 32 := by
  ext j hj
  simp [Command.addrHigh, Command.data]

@[simp] theorem addrTag_append (tag : BitVec 3) (n : BitVec 29) : addrTag (tag ++ n) = tag :=
  BitVec.extractLsb'_append_eq_left

@[simp] theorem addrPayload_append (tag : BitVec 3) (n : BitVec 29) :
    addrPayload (tag ++ n) = n :=
  BitVec.extractLsb'_append_eq_right

/-- The decoder reads an encoded address operand back (R44). -/
@[simp] theorem addressOf_operand (a : Address) : addressOf a.operand = some a := by
  cases a with
  | broadcast => rfl
  | primary n | extended n | accessory n | signal n => simp [addressOf, Address.operand]

end Sys2Proof
end

