-- ==== Sys2Proof/Laws/State.lean ====
section
/-! SUPPORT. One lemma per field per update of State, true by `rfl`. -/

namespace Sys2Proof.Machine

variable (s : State)

/-! ### `answer` -/

@[simp] theorem State.answer_config (r : Response) : (s.answer r).config = s.config := rfl
@[simp] theorem State.answer_mem (r : Response) : (s.answer r).mem = s.mem := rfl
@[simp] theorem State.answer_aborted (r : Response) : (s.answer r).aborted = s.aborted := rfl
@[simp] theorem State.answer_abortCode (r : Response) : (s.answer r).abortCode = s.abortCode := rfl
@[simp] theorem State.answer_response (r : Response) : (s.answer r).response = some r := rfl
@[simp] theorem State.answer_pending (r : Response) : (s.answer r).pending = s.pending := rfl

/-! ### `raiseAbort` -/

@[simp] theorem State.raiseAbort_config (k : AbortCode) : (s.raiseAbort k).config = s.config := rfl
@[simp] theorem State.raiseAbort_mem (k : AbortCode) : (s.raiseAbort k).mem = s.mem := rfl
@[simp] theorem State.raiseAbort_aborted (k : AbortCode) : (s.raiseAbort k).aborted = true := rfl
@[simp] theorem State.raiseAbort_abortCode (k : AbortCode) :
    (s.raiseAbort k).abortCode = k.bits := rfl
@[simp] theorem State.raiseAbort_response (k : AbortCode) :
    (s.raiseAbort k).response = some (Response.abort k.bits) := rfl
@[simp] theorem State.raiseAbort_pending (k : AbortCode) :
    (s.raiseAbort k).pending = s.pending := rfl

/-! ### `hardReset` -/

@[simp] theorem State.hardReset_config : s.hardReset.config = s.config := rfl
@[simp] theorem State.hardReset_mem : s.hardReset.mem = Memory.empty := rfl
@[simp] theorem State.hardReset_aborted : s.hardReset.aborted = false := rfl
@[simp] theorem State.hardReset_abortCode : s.hardReset.abortCode = 0 := rfl
@[simp] theorem State.hardReset_response : s.hardReset.response = none := rfl
@[simp] theorem State.hardReset_pending : s.hardReset.pending = s.pending := rfl

/-! ### `newPacker` -/

@[simp] theorem State.newPacker_config : s.newPacker.config = s.config := rfl
@[simp] theorem State.newPacker_mem : s.newPacker.mem = Memory.empty := rfl
@[simp] theorem State.newPacker_aborted : s.newPacker.aborted = s.aborted := rfl
@[simp] theorem State.newPacker_abortCode : s.newPacker.abortCode = s.abortCode := rfl
@[simp] theorem State.newPacker_response : s.newPacker.response = some (Response.ok 0) := rfl
@[simp] theorem State.newPacker_pending : s.newPacker.pending = s.pending := rfl

/-! ### `packed` -/

@[simp] theorem State.packed_config (fs : List Field) : (s.packed fs).config = s.config := rfl
@[simp] theorem State.packed_mem (fs : List Field) :
    (s.packed fs).mem = s.mem.appendFields s.config.wordBits fs := rfl
@[simp] theorem State.packed_aborted (fs : List Field) : (s.packed fs).aborted = s.aborted := rfl
@[simp] theorem State.packed_abortCode (fs : List Field) :
    (s.packed fs).abortCode = s.abortCode := rfl
@[simp] theorem State.packed_response (fs : List Field) :
    (s.packed fs).response = some (Response.ok 0) := rfl
@[simp] theorem State.packed_pending (fs : List Field) : (s.packed fs).pending = s.pending := rfl

/-! ### `present` and `resetWith` -/

@[simp] theorem State.present_config (c : Command) : (s.present c).config = s.config := rfl
@[simp] theorem State.present_mem (c : Command) : (s.present c).mem = s.mem := rfl
@[simp] theorem State.present_aborted (c : Command) : (s.present c).aborted = s.aborted := rfl
@[simp] theorem State.present_abortCode (c : Command) : (s.present c).abortCode = s.abortCode := rfl
@[simp] theorem State.present_response (c : Command) : (s.present c).response = s.response := rfl
@[simp] theorem State.present_pending (c : Command) :
    (s.present c).pending = .command c :: s.pending := rfl

@[simp] theorem State.resetWith_config (cfg : Config) : (State.resetWith cfg).config = cfg := rfl
@[simp] theorem State.resetWith_mem (cfg : Config) : (State.resetWith cfg).mem = Memory.empty := rfl
@[simp] theorem State.resetWith_aborted (cfg : Config) : (State.resetWith cfg).aborted = false := rfl
@[simp] theorem State.resetWith_abortCode (cfg : Config) : (State.resetWith cfg).abortCode = 0 := rfl
@[simp] theorem State.resetWith_response (cfg : Config) : (State.resetWith cfg).response = none := rfl
@[simp] theorem State.resetWith_pending (cfg : Config) : (State.resetWith cfg).pending = [] := rfl

end Sys2Proof.Machine
end

