-- ==== Sys2Proof/Laws/Store.lean ====
section
/-! SUPPORT. Laws of the word store: bit lists, one round of the append loop (what it does to the bit
stream and that it keeps the canonical form), and that every memory operation keeps the canonical
form. -/

namespace Sys2Proof.Machine

/-! ### Bit lists -/

@[simp] theorem bitsMSB_zero (v : Nat) : bitsMSB v 0 = [] := rfl

theorem bitsMSB_succ (v n : Nat) : bitsMSB v (n + 1) = v.testBit n :: bitsMSB v n := rfl

@[simp] theorem length_bitsMSB (v n : Nat) : (bitsMSB v n).length = n := by
  induction n with
  | zero => rfl
  | succ n ih => simp [bitsMSB_succ, ih]

theorem bitsMSB_congr {v v' n : Nat} (h : ∀ j < n, v.testBit j = v'.testBit j) :
    bitsMSB v n = bitsMSB v' n := by
  induction n with
  | zero => rfl
  | succ n ih =>
    rw [bitsMSB_succ, bitsMSB_succ, h n (Nat.lt_succ_self n), ih fun j hj => h j (by omega)]

/-- The first `a` of `a + b` bits are the bits of the value shifted right by `b`. -/
theorem bitsMSB_add (v a b : Nat) : bitsMSB v (a + b) = bitsMSB (v >>> b) a ++ bitsMSB v b := by
  induction a with
  | zero => simp
  | succ a ih =>
    rw [Nat.add_right_comm, bitsMSB_succ, ih, bitsMSB_succ, Nat.testBit_shiftRight, Nat.add_comm b a]
    rfl

theorem take_bitsMSB_add (v a b : Nat) : (bitsMSB v (a + b)).take a = bitsMSB (v >>> b) a := by
  rw [bitsMSB_add, List.take_append_of_le_length (by simp), List.take_of_length_le (by simp)]

@[simp] theorem bitsMSB_mod_two_pow (v n : Nat) : bitsMSB (v % 2 ^ n) n = bitsMSB v n :=
  bitsMSB_congr fun j hj => by simp [Nat.testBit_mod_two_pow, hj]

theorem bitsMSB_sliceBits (v lo n : Nat) : bitsMSB (sliceBits v lo n) n = bitsMSB (v >>> lo) n :=
  bitsMSB_mod_two_pow _ _

/-! ### One round of the loop of R52 -/

theorem sliceBits_lt (v lo n : Nat) : sliceBits v lo n < 2 ^ n := Nat.mod_lt _ (by positivity)

/-- Low bits that are zero, bit by bit. -/
theorem testBit_of_mod_two_pow_eq_zero {x n j : Nat} (h : x % 2 ^ n = 0) (hj : j < n) :
    x.testBit j = false := by
  have := congrArg (fun y => y.testBit j) h
  simpa [Nat.testBit_mod_two_pow, hj] using this

/-- The bits of the current word after a slice of `k` bits is put at offset `off`. -/
theorem testBit_or_shiftLeft {cur sl k off : Nat} (hcur : cur % 2 ^ (off + k) = 0) (hsl : sl < 2 ^ k)
    (j : Nat) :
    (cur ||| sl <<< off).testBit j =
      if off + k ≤ j then cur.testBit j else if off ≤ j then sl.testBit (j - off) else false := by
  rw [Nat.testBit_or, Nat.testBit_shiftLeft]
  by_cases h1 : off + k ≤ j
  · have : sl.testBit (j - off) = false :=
      Nat.testBit_lt_two_pow (lt_of_lt_of_le hsl (Nat.pow_le_pow_right (by omega) (by omega)))
    simp [h1, this]
  · rw [testBit_of_mod_two_pow_eq_zero hcur (by omega)]
    by_cases h2 : off ≤ j <;> simp [h1, h2]

theorem or_shiftLeft_lt {w cur sl k off : Nat} (hcur : cur < 2 ^ w) (hsl : sl < 2 ^ k)
    (hk : off + k ≤ w) : cur ||| sl <<< off < 2 ^ w := by
  refine Nat.or_lt_two_pow hcur ?_
  rw [Nat.shiftLeft_eq]
  calc sl * 2 ^ off < 2 ^ k * 2 ^ off := Nat.mul_lt_mul_of_pos_right hsl (by positivity)
    _ = 2 ^ (off + k) := by rw [Nat.pow_add, Nat.mul_comm]
    _ ≤ 2 ^ w := Nat.pow_le_pow_right (by omega) hk

theorem or_shiftLeft_mod {cur sl k off : Nat} (hcur : cur % 2 ^ (off + k) = 0) (hsl : sl < 2 ^ k) :
    (cur ||| sl <<< off) % 2 ^ off = 0 := by
  refine Nat.eq_of_testBit_eq fun j => ?_
  rw [Nat.testBit_mod_two_pow, testBit_or_shiftLeft hcur hsl, Nat.zero_testBit]
  by_cases h : j < off
  · simp [h, show ¬off + k ≤ j by omega, show ¬off ≤ j by omega]
  · simp [h]

/-- One round of the loop keeps the canonical form. -/
theorem Memory.placeSlice_wf {w : Nat} {m : Memory} (h : m.wf w) (v rem : Nat) :
    (m.placeSlice w v rem).wf w := by
  obtain ⟨hwords, hused, hlt, hmod⟩ := h
  have hsum : (w - m.used - min rem (w - m.used)) + min rem (w - m.used) = w - m.used := by omega
  have hcur := or_shiftLeft_lt (w := w) (off := w - m.used - min rem (w - m.used)) hlt
    (sliceBits_lt v (rem - min rem (w - m.used)) (min rem (w - m.used))) (by omega)
  have hlow := or_shiftLeft_mod (off := w - m.used - min rem (w - m.used)) (by rw [hsum]; exact hmod)
    (sliceBits_lt v (rem - min rem (w - m.used)) (min rem (w - m.used)))
  unfold Memory.placeSlice
  dsimp only
  split
  · refine ⟨fun x hx => ?_, by dsimp; omega, by positivity, Nat.zero_mod _⟩
    rcases List.mem_append.1 hx with hx | hx
    · exact hwords x hx
    · rw [List.mem_singleton.1 hx]; exact hcur
  · refine ⟨hwords, by dsimp; omega, hcur, ?_⟩
    rwa [Nat.sub_add_eq]

/-- One round of the loop appends the `k` high-order bits of what remains to the bit stream. -/
theorem Memory.placeSlice_stream {w : Nat} {m : Memory} (h : m.wf w) (v rem : Nat) :
    (m.placeSlice w v rem).stream w =
      m.stream w ++
        bitsMSB (v >>> (rem - min rem (w - m.used))) (min rem (w - m.used)) := by
  obtain ⟨-, hused, -, hmod⟩ := h
  generalize hk : min rem (w - m.used) = k
  have hkw : k ≤ w - m.used := by omega
  generalize hoff : w - m.used - k = off
  have hw : w = m.used + (k + off) := by omega
  have hmod' : m.cur % 2 ^ (off + k) = 0 := by rwa [show off + k = w - m.used by omega]
  have hsl := sliceBits_lt v (rem - k) k
  generalize hc : (m.cur ||| sliceBits v (rem - k) k <<< off) = cur'
  have hbits : (bitsMSB cur' w).take (m.used + k) =
      (bitsMSB m.cur w).take m.used ++ bitsMSB (v >>> (rem - k)) k := by
    have h1 : bitsMSB (cur' >>> (k + off)) m.used = bitsMSB (m.cur >>> (k + off)) m.used :=
      bitsMSB_congr fun j _ => by
        rw [Nat.testBit_shiftRight, Nat.testBit_shiftRight, ← hc, testBit_or_shiftLeft hmod' hsl,
          if_pos (by omega)]
    have h2 : bitsMSB (cur' >>> off) k = bitsMSB (v >>> (rem - k)) k := by
      rw [← bitsMSB_sliceBits v (rem - k) k]
      refine bitsMSB_congr fun j hj => ?_
      rw [Nat.testBit_shiftRight, ← hc, testBit_or_shiftLeft hmod' hsl, if_neg (by omega),
        if_pos (by omega), Nat.add_sub_cancel_left]
    rw [hw, take_bitsMSB_add, ← Nat.add_assoc, take_bitsMSB_add, bitsMSB_add,
      ← Nat.shiftRight_add, Nat.add_comm off k, h1, h2]
  unfold Memory.placeSlice Memory.stream
  simp only [hk, hoff, hc]
  split
  · rename_i hfull
    simp only [List.flatMap_append, List.flatMap_cons, List.flatMap_nil, List.append_nil,
      List.take_zero, List.append_assoc, List.append_cancel_left_eq]
    rw [← hbits, hfull, List.take_of_length_le (by simp)]
  · simp only [List.append_assoc, List.append_cancel_left_eq]
    exact hbits

/-! ### Every memory operation keeps the canonical form -/

theorem Memory.empty_wf {w : Nat} (hw : 1 ≤ w) : Memory.empty.wf w :=
  ⟨by simp [Memory.empty], hw, by simp [Memory.empty], Nat.zero_mod _⟩

theorem Memory.appendLoop_wf {w v : Nat} (fuel : Nat) :
    ∀ {rem : Nat} {m : Memory}, m.wf w → (Memory.appendLoop w v fuel rem m).wf w := by
  induction fuel with
  | zero => exact fun h => h
  | succ fuel ih =>
    intro rem m h
    rw [Memory.appendLoop]
    split
    · exact h
    · exact ih (Memory.placeSlice_wf h v rem)

theorem Memory.appendBits_wf {w : Nat} {m : Memory} (h : m.wf w) (v n : Nat) :
    (m.appendBits w v n).wf w := Memory.appendLoop_wf n h

@[simp] theorem Memory.appendFields_nil (w : Nat) (m : Memory) : m.appendFields w [] = m := rfl

@[simp] theorem Memory.appendFields_cons (w : Nat) (f : Field) (fs : List Field) (m : Memory) :
    m.appendFields w (f :: fs) = (m.appendBits w f.value f.len).appendFields w fs := rfl

theorem Memory.appendFields_wf {w : Nat} (fields : List Field) :
    ∀ {m : Memory}, m.wf w → (m.appendFields w fields).wf w := by
  induction fields with
  | nil => exact fun h => h
  | cons f fs ih => exact fun h => ih (Memory.appendBits_wf h f.value f.len)

/-! ### Observations -/

theorem Memory.length_stream {w : Nat} {m : Memory} (h : m.wf w) :
    (m.stream w).length = m.nbits w := by
  have hused : m.used ≤ w := h.2.1.le
  simp [Memory.stream, Memory.nbits, List.length_flatMap, hused, Nat.mul_comm]

@[simp] theorem totalBits_nil : totalBits [] = 0 := rfl

@[simp] theorem totalBits_cons (f : Field) (fs : List Field) :
    totalBits (f :: fs) = f.len + totalBits fs := by simp [totalBits]

@[simp] theorem Field.ofBits_value {n : Nat} (v : BitVec n) : (Field.ofBits v).value = v.toNat := rfl

@[simp] theorem Field.ofBits_len {n : Nat} (v : BitVec n) : (Field.ofBits v).len = n := rfl

theorem Memory.read_of_lt {m : Memory} {i : Nat} (h : i < m.results.length) :
    m.read i = (m.results[i], true) := by simp [Memory.read, h]

end Sys2Proof.Machine
end

