-- ==== Sys2Proof/Laws/Ops.lean ====
section
/-! SUPPORT. For each shared operation, once, everything it can do; what exec is on a live and on an
aborted state; and what a step can do. -/

namespace Sys2Proof.Machine

variable {s : State}

/-! ### Taking the host's input -/

theorem State.takeInput_of_nil (h : s.pending = []) : s.takeInput = none := by
  simp [State.takeInput, h]

theorem State.takeInput_of_cons {e : HostInput} {rest : List HostInput}
    (h : s.pending = e :: rest) : s.takeInput = some (e, { s with pending := rest }) := by
  simp [State.takeInput, h]

/-! ### The checks of R92 -/

theorem State.whenLive_of_aborted (h : s.aborted = true) (body : State → State) :
    s.whenLive body = s.answer (Response.abort s.abortCode) := by
  simp [State.whenLive, h]

theorem State.whenLive_of_live (h : s.aborted = false) (body : State → State) :
    s.whenLive body = body s := by
  simp [State.whenLive, h]

theorem State.checkLength_cases (s : State) (vw : ValueWidth) (len : BitVec 7)
    (body : State → State) :
    (fieldLengthInvalid vw len = true ∧ s.checkLength vw len body = s.raiseAbort .fieldLength) ∨
      (fieldLengthInvalid vw len = false ∧ s.checkLength vw len body = body s) := by
  unfold State.checkLength
  cases fieldLengthInvalid vw len <;> simp

theorem State.checkAddress_cases (s : State) (a : Address) (body : State → State) :
    (a.inRange s.config = true ∧ s.checkAddress a body = body s) ∨
      (a.inRange s.config = false ∧ s.checkAddress a body = s.raiseAbort .addressRange) := by
  unfold State.checkAddress
  cases a.inRange s.config <;> simp

theorem State.capacityExceeded_unbounded (h : s.config.maxWords = none) (t : Nat) :
    s.capacityExceeded t = false := by simp [State.capacityExceeded, h]

theorem State.capacityExceeded_bounded {limit : Nat} (h : s.config.maxWords = some limit) (t : Nat) :
    s.capacityExceeded t = true ↔
      limit < ceilDiv (s.mem.nbits s.config.wordBits + t) s.config.wordBits := by
  simp [State.capacityExceeded, h]

/-! ### Packing -/

theorem State.packFields_cases (s : State) (fields : List Field) :
    (s.capacityExceeded (totalBits fields) = true ∧
        s.packFields fields = s.raiseAbort .capacity) ∨
      (s.capacityExceeded (totalBits fields) = false ∧ s.packFields fields = s.packed fields) := by
  unfold State.packFields
  cases s.capacityExceeded (totalBits fields) <;> simp

theorem State.packAddress_cases (s : State) (a : Address) :
    (a.inRange s.config = false ∧ s.packAddress a = s.raiseAbort .addressRange) ∨
      (a.inRange s.config = true ∧ s.packAddress a = s.packFields (a.fields s.config)) := by
  unfold State.packAddress
  rcases s.checkAddress_cases a (fun s => s.packFields (a.fields s.config)) with h | h
  · exact .inr h
  · exact .inl h

/-! ### What an instruction and a step can do -/

/-- The fields an instruction of the `ADD` family appends when none of its checks fails; `none` for
the other instructions. -/
def packedFields (cfg : Config) : Instr → Option (List Field)
  | .add _ value len => some [{ value := value.toNat, len := len.toNat }]
  | .addb b => some [Field.ofBits (BitVec.ofBool b)]
  | .addu8 v => some [Field.ofBits v]
  | .addu16 v => some [Field.ofBits v]
  | .addu32 v => some [Field.ofBits v]
  | .addu64 v => some [Field.ofBits v]
  | .addaBcast => some (Address.broadcast.fields cfg)
  | .addaPri n => some ((Address.primary n).fields cfg)
  | .addaExt n => some ((Address.extended n).fields cfg)
  | .addaAcc n => some ((Address.accessory n).fields cfg)
  | .addaSig n => some ((Address.signal n).fields cfg)
  | .acmp _ _ => none
  | .atxtPri _ => none
  | .atxtExt _ => none
  | .new => none

/-- Everything an instruction can do: in the aborted state it only answers (R94); in a live state it
aborts (R93), or it appends the fields of its row, or it only answers `OK`, or it is `NEW`. -/
theorem exec_cases {i : Instr} {s t : State} (h : exec i s = .next t) :
    (s.aborted = true ∧ t = s.answer (Response.abort s.abortCode)) ∨
    (s.aborted = false ∧ ∃ k, k ≠ .illegalCommand ∧ t = s.raiseAbort k) ∨
    (s.aborted = false ∧ ∃ fields, packedFields s.config i = some fields ∧
      s.capacityExceeded (totalBits fields) = false ∧ t = s.packed fields) ∨
    (s.aborted = false ∧ packedFields s.config i = none ∧ ∃ d, t = s.answer (Response.ok d)) ∨
    (s.aborted = false ∧ i = .new ∧ t = s.newPacker) := by
  have pack : ∀ fields, packedFields s.config i = some fields → t = s.packFields fields →
      (∃ k, k ≠ AbortCode.illegalCommand ∧ t = s.raiseAbort k) ∨
      ∃ fields, packedFields s.config i = some fields ∧
        s.capacityExceeded (totalBits fields) = false ∧ t = s.packed fields := by
    intro fields hf ht
    rcases s.packFields_cases fields with ⟨-, hp⟩ | ⟨hc, hp⟩
    · exact .inl ⟨.capacity, by decide, ht.trans hp⟩
    · exact .inr ⟨fields, hf, hc, ht.trans hp⟩
  have addr : ∀ a : Address, packedFields s.config i = some (a.fields s.config) →
      t = s.packAddress a →
      (∃ k, k ≠ AbortCode.illegalCommand ∧ t = s.raiseAbort k) ∨
      ∃ fields, packedFields s.config i = some fields ∧
        s.capacityExceeded (totalBits fields) = false ∧ t = s.packed fields := by
    intro a hf ht
    rcases s.packAddress_cases a with ⟨-, hp⟩ | ⟨-, hp⟩
    · exact .inl ⟨.addressRange, by decide, ht.trans hp⟩
    · exact pack _ hf (ht.trans hp)
  by_cases ha : s.aborted = true
  · refine .inl ⟨ha, ?_⟩
    cases i <;> (injection h with h; rw [← h, State.whenLive_of_aborted ha])
  replace ha : s.aborted = false := by simpa using ha
  refine .inr ?_
  cases i with
  | add vw value len =>
    injection h with h
    rw [State.whenLive_of_live ha] at h
    rcases s.checkLength_cases vw len fun s =>
      s.packFields [{ value := value.toNat, len := len.toNat }] with ⟨-, hc⟩ | ⟨-, hc⟩
    · exact .inl ⟨ha, .fieldLength, by decide, h.symm.trans hc⟩
    · exact (pack _ rfl (h.symm.trans hc)).imp (⟨ha, ·⟩) fun hp => .inl ⟨ha, hp⟩
  | addb _ | addu8 _ | addu16 _ | addu32 _ | addu64 _ =>
    injection h with h
    rw [State.whenLive_of_live ha] at h
    exact (pack _ rfl h.symm).imp (⟨ha, ·⟩) fun hp => .inl ⟨ha, hp⟩
  | addaBcast | addaPri _ | addaExt _ | addaAcc _ | addaSig _ =>
    injection h with h
    rw [State.whenLive_of_live ha] at h
    exact (addr _ rfl h.symm).imp (⟨ha, ·⟩) fun hp => .inl ⟨ha, hp⟩
  | acmp a b =>
    injection h with h
    rw [State.whenLive_of_live ha] at h
    rcases s.checkAddress_cases a fun s => s.checkAddress b fun s =>
      s.answer (Response.ok (a.compare b).bits) with ⟨-, hc⟩ | ⟨-, hc⟩
    · rcases s.checkAddress_cases b fun s =>
        s.answer (Response.ok (a.compare b).bits) with ⟨-, hd⟩ | ⟨-, hd⟩
      · exact .inr (.inr (.inl ⟨ha, rfl, _, h.symm.trans (hc.trans hd)⟩))
      · exact .inl ⟨ha, .addressRange, by decide, h.symm.trans (hc.trans hd)⟩
    · exact .inl ⟨ha, .addressRange, by decide, h.symm.trans hc⟩
  | atxtPri n =>
    injection h with h
    rw [State.whenLive_of_live ha] at h
    rcases s.checkAddress_cases (.primary n) fun s =>
      s.answer (Response.ok (textData (primaryText n))) with ⟨-, hc⟩ | ⟨-, hc⟩
    · exact .inr (.inr (.inl ⟨ha, rfl, _, h.symm.trans hc⟩))
    · exact .inl ⟨ha, .addressRange, by decide, h.symm.trans hc⟩
  | atxtExt n =>
    injection h with h
    rw [State.whenLive_of_live ha] at h
    rcases s.checkAddress_cases (.extended n) fun s =>
      s.answer (Response.ok (textData (extendedText n))) with ⟨-, hc⟩ | ⟨-, hc⟩
    · exact .inr (.inr (.inl ⟨ha, rfl, _, h.symm.trans hc⟩))
    · exact .inl ⟨ha, .addressRange, by decide, h.symm.trans hc⟩
  | new =>
    injection h with h
    rw [State.whenLive_of_live ha] at h
    exact .inr (.inr (.inr ⟨ha, rfl, h.symm⟩))

/-- Everything a step can do: nothing without an input; reset; the decoded instruction; or, on a word
that does not decode, the `IllegalCommand` check. -/
theorem step_cases (s : State) :
    (s.pending = [] ∧ step s = .next s) ∨
    (∃ rest, s.pending = .reset :: rest ∧
      step s = .next (State.hardReset { s with pending := rest })) ∨
    (∃ c rest i, s.pending = .command c :: rest ∧ decode c = .ok i ∧
      step s = exec i { s with pending := rest }) ∨
    (∃ c rest r, s.pending = .command c :: rest ∧ decode c = .error r ∧
      step s = .next (State.illegalCommand { s with pending := rest })) := by
  match hp : s.pending with
  | [] => exact .inl ⟨rfl, by simp [step, State.takeInput_of_nil hp]⟩
  | .reset :: rest =>
    exact .inr (.inl ⟨rest, rfl, by simp [step, State.takeInput_of_cons hp]⟩)
  | .command c :: rest =>
    refine .inr (.inr ?_)
    match hd : decode c with
    | .ok i =>
      exact .inl ⟨c, rest, i, rfl, hd, by simp [step, State.takeInput_of_cons hp, hd]⟩
    | .error r =>
      exact .inr ⟨c, rest, r, rfl, hd, by simp [step, State.takeInput_of_cons hp, hd]⟩

end Sys2Proof.Machine
end

