-- ==== Sys2Proof/Laws/PerInstr.lean ====
section
/-! SUPPORT. Families proved instruction by instruction (LAWS.json). `EncodeLayout`: the fields of an
encoded instruction are those of its row, `Z` is zero, and its operation code selects an operation
(R39, R40, R45). -/

namespace Sys2Proof.Laws

/-- The encoded word of an instruction carries the instruction's fields, its `Z` is zero and its `OP`
is no reserved code. -/
def EncodeLayout.Statement (i : Instr) : Prop :=
  Command.op (encode i) = i.op ∧ Command.sel (encode i) = i.sel ∧ Command.z (encode i) = 0 ∧
    Command.len (encode i) = i.len ∧ Command.data (encode i) = i.data ∧
    (operationOf i.op).isSome = true

/-- The fields read back whatever the instruction is; only its operation code is its own. -/
theorem encodeLayout_of_operation {i : Instr} (h : (operationOf i.op).isSome = true) :
    EncodeLayout.Statement i :=
  ⟨op_commandWord _ _ _ _, sel_commandWord _ _ _ _, z_commandWord _ _ _ _, len_commandWord _ _ _ _,
    data_commandWord _ _ _ _, h⟩

theorem EncodeLayout.add (vw : ValueWidth) (value : BitVec 64) (len : BitVec 7) :
    EncodeLayout.Statement (.add vw value len) := encodeLayout_of_operation rfl

theorem EncodeLayout.addb (b : Bool) :
    EncodeLayout.Statement (.addb b) := encodeLayout_of_operation rfl

theorem EncodeLayout.addu8 (v : BitVec 8) :
    EncodeLayout.Statement (.addu8 v) := encodeLayout_of_operation rfl

theorem EncodeLayout.addu16 (v : BitVec 16) :
    EncodeLayout.Statement (.addu16 v) := encodeLayout_of_operation rfl

theorem EncodeLayout.addu32 (v : BitVec 32) :
    EncodeLayout.Statement (.addu32 v) := encodeLayout_of_operation rfl

theorem EncodeLayout.addu64 (v : BitVec 64) :
    EncodeLayout.Statement (.addu64 v) := encodeLayout_of_operation rfl

theorem EncodeLayout.addaBcast :
    EncodeLayout.Statement .addaBcast := encodeLayout_of_operation rfl

theorem EncodeLayout.addaPri (n : BitVec 29) :
    EncodeLayout.Statement (.addaPri n) := encodeLayout_of_operation rfl

theorem EncodeLayout.addaExt (n : BitVec 29) :
    EncodeLayout.Statement (.addaExt n) := encodeLayout_of_operation rfl

theorem EncodeLayout.addaAcc (n : BitVec 29) :
    EncodeLayout.Statement (.addaAcc n) := encodeLayout_of_operation rfl

theorem EncodeLayout.addaSig (n : BitVec 29) :
    EncodeLayout.Statement (.addaSig n) := encodeLayout_of_operation rfl

theorem EncodeLayout.acmp (a b : Address) :
    EncodeLayout.Statement (.acmp a b) := encodeLayout_of_operation rfl

theorem EncodeLayout.atxtPri (n : BitVec 29) :
    EncodeLayout.Statement (.atxtPri n) := encodeLayout_of_operation rfl

theorem EncodeLayout.atxtExt (n : BitVec 29) :
    EncodeLayout.Statement (.atxtExt n) := encodeLayout_of_operation rfl

theorem EncodeLayout.new :
    EncodeLayout.Statement .new := encodeLayout_of_operation rfl

end Sys2Proof.Laws
end

