-- ==== Sys2Proof/Laws/Response.lean ====
section
/-! SUPPORT. The fields of the response record read back what was packed (R48). -/

namespace Sys2Proof.Machine

@[simp] theorem Response.status_pack (st : Bool) (k : BitVec 4) (d : BitVec 48) :
    Response.status (Response.pack st k d) = st :=
  (getLsbD_append_skip (BitVec.ofBool st ++ k) d 4).trans <|
    (getLsbD_append_skip (BitVec.ofBool st) k 0).trans (by simp)

@[simp] theorem Response.code_pack (st : Bool) (k : BitVec 4) (d : BitVec 48) :
    Response.code (Response.pack st k d) = k :=
  (extractLsb'_append_skip (BitVec.ofBool st ++ k) d 0 4).trans BitVec.extractLsb'_append_eq_right

@[simp] theorem Response.data_pack (st : Bool) (k : BitVec 4) (d : BitVec 48) :
    Response.data (Response.pack st k d) = d :=
  BitVec.extractLsb'_append_eq_right (a := BitVec.ofBool st ++ k)

@[simp] theorem Response.status_ok (d : BitVec 48) : Response.status (Response.ok d) = false :=
  Response.status_pack _ _ _

@[simp] theorem Response.code_ok (d : BitVec 48) : Response.code (Response.ok d) = 0 :=
  Response.code_pack _ _ _

@[simp] theorem Response.data_ok (d : BitVec 48) : Response.data (Response.ok d) = d :=
  Response.data_pack _ _ _

@[simp] theorem Response.status_abort (k : BitVec 4) : Response.status (Response.abort k) = true :=
  Response.status_pack _ _ _

@[simp] theorem Response.code_abort (k : BitVec 4) : Response.code (Response.abort k) = k :=
  Response.code_pack _ _ _

@[simp] theorem Response.data_abort (k : BitVec 4) : Response.data (Response.abort k) = 0 :=
  Response.data_pack _ _ _

end Sys2Proof.Machine
end

