-- ==== Sys2Proof/Laws/Safety.lean ====
section
/-! SUPPORT. What the parts of the invariant say, case by case. -/

namespace Sys2Proof.Machine

variable {s : State}

theorem State.responseAgrees_of_aborted (h : s.aborted = true) :
    s.responseAgrees = true ↔ s.response = some (Response.abort s.abortCode) := by
  simp [State.responseAgrees, h]

theorem State.responseAgrees_of_ok {d : BitVec 48} (h : s.aborted = false)
    (hr : s.response = some (Response.ok d)) : s.responseAgrees = true := by
  simp [State.responseAgrees, h, hr]

theorem State.responseAgrees_of_none (h : s.aborted = false) (hr : s.response = none) :
    s.responseAgrees = true := by
  simp [State.responseAgrees, h, hr]

theorem State.withinCapacity_iff :
    s.withinCapacity = true ↔ ∀ limit, s.config.maxWords = some limit → s.count ≤ limit := by
  cases h : s.config.maxWords <;> simp [State.withinCapacity, h]

theorem State.abortCodeAgrees_of_live (h : s.aborted = false) :
    s.abortCodeAgrees = true ↔ s.abortCode = 0 := by
  simp [State.abortCodeAgrees, h]

theorem State.abortCodeAgrees_of_aborted (h : s.aborted = true) :
    s.abortCodeAgrees = true ↔ 1 ≤ s.abortCode.toNat ∧ s.abortCode.toNat ≤ 4 := by
  simp [State.abortCodeAgrees, h]

/-- The codes of R87 are 1 to 4. -/
theorem AbortCode.bits_range (k : AbortCode) : 1 ≤ k.bits.toNat ∧ k.bits.toNat ≤ 4 := by
  cases k <;> decide

end Sys2Proof.Machine
end

