-- ==== Sys2Proof/Tests/Slice0.lean ====
section
/-! SUPPORT. The model's own tests. Every expected result is one of spec/95_test_vectors.md (its number
stands in the comment); the witnesses show, for each statement with hypotheses, a state and operands
that meet all of them together, one for each clause at a boundary value of its range. -/

namespace Sys2Proof.Tests

open Sys2Proof.Machine

/-! ### Helpers -/

/-- An instance right after reset. -/
def fresh (w : Nat) (maxWords : Option Nat) : State := State.resetWith (Config.ofInstance w maxWords)

/-- The state with the given word store. -/
def holding (s : State) (words : List Word) (cur : Word) (used : Nat) : State :=
  { s with mem := { words := words, cur := cur, used := used } }

/-- The state an outcome leaves. -/
def left (o : Host.Outcome State Fault Refusal) : State :=
  match o with
  | .next t => t
  | .fault _ => State.reset
  | .refused _ => State.reset

/-- The state after one command word. -/
def issue (s : State) (word : Nat) : State := left (step (s.withFetchWord 80 word))

/-- A state as the vectors write it: `RESULTS`, `used`, `BITSREM`. -/
def shown (s : State) : List Word × Nat × Nat := (s.results, s.mem.used, s.bitsRem)

/-- The host's next inputs are the given words. -/
def given (s : State) (words : List Nat) : State :=
  { s with pending := words.map fun w => .command (tableCommand 80 w) }

/-- A block that raised `FieldLength` (program P4, steps 1 and 2). -/
def abortedBlock : State := issue (issue (fresh 8 none) 0x40000000000020000003) 0x10000000000000000005

/-- A live bounded block with `W = 8`, `MAXWORDS = 2`, and 12 bits packed (V131's neighbour). -/
def boundedBlock : State := holding (fresh 8 (some 2)) [0xA6] 0x90 4

/-! ### The check of WellFormed -/

/-- `ADD.8` with a value of nine bits is ill formed (R43, R49). -/
theorem test_ill_formed_add_value : (Instr.add .w8 0x100 3).wellFormed = false := by decide

theorem test_well_formed_add_value : (Instr.add .w8 0xFF 3).wellFormed = true := by decide

/-! ### Decoding: words written out from the encodings, one of each row -/

theorem test_decode_add :
    decodeTableWord 80 0x10030000000000000005 = some (.add .w8 5 3) := by decide
theorem test_decode_addb :
    decodeTableWord 80 0x20000000000000000001 = some (.addb true) := by decide
theorem test_decode_addu8 :
    decodeTableWord 80 0x300000000000000000BB = some (.addu8 0xBB) := by decide
theorem test_decode_addu16 : decodeTableWord 80 0x3200000000000000C4E2 = some (.addu16 0xC4E2) := by
  decide
theorem test_decode_addu32 : decodeTableWord 80 0x340000000000DEADBEEF = some (.addu32 0xDEADBEEF) := by
  decide
theorem test_decode_addu64 :
    decodeTableWord 80 0x3600123456789ABCDEF0 = some (.addu64 0x123456789ABCDEF0) := by decide
theorem test_decode_adda_bcast : decodeTableWord 80 0x4000DEADBEEF01234567 = some .addaBcast := by
  decide
theorem test_decode_adda_pri : decodeTableWord 80 0x4000000000002000007E = some (.addaPri 126) := by
  decide
theorem test_decode_adda_ext : decodeTableWord 80 0x400000000000400027FF = some (.addaExt 10239) := by
  decide
theorem test_decode_adda_acc : decodeTableWord 80 0x40000000000060000136 = some (.addaAcc 310) := by
  decide
theorem test_decode_adda_sig : decodeTableWord 80 0x4000000000008000046E = some (.addaSig 1134) := by
  decide
theorem test_decode_acmp :
    decodeTableWord 80 0x50006000013680000071 = some (.acmp (.accessory 310) (.signal 113)) := by decide
theorem test_decode_atxt_pri : decodeTableWord 80 0x6000000000002000007D = some (.atxtPri 125) := by
  decide
theorem test_decode_atxt_ext : decodeTableWord 80 0x60000000000040002710 = some (.atxtExt 10000) := by
  decide
theorem test_decode_new : decodeTableWord 80 0x70000000000000000000 = some .new := by decide

/-- The reason a word is rejected for. -/
def rejected (word : Nat) : Option IllegalReason :=
  match decode (tableCommand 80 word) with
  | .ok _ => none
  | .error r => some r

/-- V115, V117, V120. -/
theorem test_reject_reserved_op_and_z :
    rejected 0 = some .reservedOp ∧ rejected 0xF0000000000000000000 = some .reservedOp ∧
      rejected 0x110800000000000000FF = some .nonzeroZ := by decide

/-- V118, V119, V123, V121, V130. -/
theorem test_reject_sel_and_len :
    rejected 0x18010000000000000000 = some .reservedSel ∧
      rejected 0x3A000000000000000000 = some .reservedSel ∧
      rejected 0x42000000000020000003 = some .nonzeroSel ∧
      rejected 0x20010000000000000001 = some .nonzeroLen ∧
      rejected 0x70050000000000000000 = some .nonzeroLen := by decide

/-- V124, V125, V126, V127, V128. -/
theorem test_reject_tags :
    rejected 0x400000000000A0000000 = some .reservedTag ∧
      rejected 0x5000E000000020000000 = some .reservedTag ∧
      rejected 0x50002000007FC0000000 = some .reservedTag ∧
      rejected 0x60000000000000000000 = some .noTextForm ∧
      rejected 0x60000000000060000001 = some .noTextForm := by decide

/-- The canonical words of programs P1 and P3 are the encoder's. -/
theorem test_encode :
    encode (.addaExt 1250) = 0x400000000000400004E2#80 ∧
      encode (.add .w32 0xFFFABCDE 20) = 0x141400000000FFFABCDE#80 ∧
      encode (.acmp (.primary 125) (.extended 3)) = 0x50002000007D40000003#80 := by decide

/-! ### One step of each instruction -/

/-- V30: a field that spans three words. -/
theorem test_add_spans_words :
    shown (issue (fresh 8 none) 0x141400000000000ABCDE) = ([0xAB, 0xCD, 0xE0], 4, 4) := by decide
/-- V109, V110: `FieldLength`. -/
theorem test_add_field_length :
    (issue (fresh 8 none) 0x10000000000000000005).abortCode = 2 ∧
      (issue (fresh 8 none) 0x100900000000000000FF).abortCode = 2 := by decide
/-- V39. -/
theorem test_addb :
    shown (issue (fresh 8 none) 0x20000000000000000001) = ([0x80], 1, 7) := by decide
/-- V131: `Capacity`, and the state as before. -/
theorem test_addb_capacity :
    (issue (holding (fresh 8 (some 2)) [0xA6, 0x93] 0 0) 0x20000000000000000001).abortCode = 4 ∧
      shown (issue (holding (fresh 8 (some 2)) [0xA6, 0x93] 0 0) 0x20000000000000000001) =
        ([0xA6, 0x93], 0, 0) := by decide
/-- V48: a field that straddles two words. -/
theorem test_addu8_straddles :
    shown (issue (holding (fresh 8 none) [] 0x80 1) 0x300000000000000000FF) = ([0xFF, 0x80], 1, 7) := by
  decide
/-- V31, second command. -/
theorem test_addu16 :
    shown (issue (holding (fresh 16 none) [] 0x8000 1) 0x3200000000000000ABCD) =
      ([0xD5E6, 0x8000], 1, 15) := by decide
/-- V46. -/
theorem test_addu32 :
    shown (issue (fresh 8 none) 0x340000000000DEADBEEF) = ([0xDE, 0xAD, 0xBE, 0xEF], 0, 0) := by decide
/-- V32, first command. -/
theorem test_addu64 :
    shown (issue (fresh 32 none) 0x3600123456789ABCDEF0) = ([0x12345678, 0x9ABCDEF0], 0, 0) := by decide
/-- V1. -/
theorem test_adda_bcast :
    shown (issue (fresh 16 none) 0x40000000000000000000) = ([0], 8, 8) := by decide
/-- V4. -/
theorem test_adda_pri :
    shown (issue (fresh 8 none) 0x4000000000002000007E) = ([0x7E], 0, 0) := by decide
/-- V101: the low seven bits are not packed. -/
theorem test_adda_pri_out_of_range :
    (issue (fresh 8 none) 0x4000000000003FFFFFFF).abortCode = 1 ∧
      shown (issue (fresh 8 none) 0x4000000000003FFFFFFF) = ([], 0, 0) := by decide
/-- V38: `W = 5`. -/
theorem test_adda_ext :
    shown (issue (fresh 5 none) 0x400000000000400004E2) = ([0x18, 0x13, 0x11, 0x00], 1, 4) := by decide
/-- V132: neither byte is packed. -/
theorem test_adda_ext_capacity :
    (issue (holding (fresh 8 (some 2)) [0x03] 0 0) 0x400000000000400000D2).abortCode = 4 ∧
      shown (issue (holding (fresh 8 (some 2)) [0x03] 0 0) 0x400000000000400000D2) = ([0x03], 0, 0) := by
  decide
/-- V50, second command. -/
theorem test_adda_acc :
    shown (issue (holding (fresh 8 none) [] 0x80 1) 0x40000000000060000136) = ([0xD3, 0x48], 5, 3) := by
  decide
/-- V134: range before capacity. -/
theorem test_adda_acc_range_first :
    (issue (fresh 8 (some 1)) 0x40000000000060000200).abortCode = 1 := by decide
/-- V18. -/
theorem test_adda_sig :
    shown (issue (fresh 8 none) 0x4000000000008000046E) = ([0xA3, 0x35], 0, 0) := by decide
/-- V18's word with `SIG_INVERT_MID = 1` (section 2.1, remarks). -/
theorem test_adda_sig_inverted :
    (issue (State.resetWith { Config.reference with sigInvertMid := true })
      0x4000000000008000046E).results = [0xA3, 0x45] := by decide
/-- Program P5, step 1: `LT`. -/
theorem test_acmp_lt :
    (issue (fresh 8 none) 0x50002000007D40000003).response = some 1 := by decide
/-- V76: `GT`. -/
theorem test_acmp_gt :
    (issue (fresh 8 none) 0x50002000007D20000003).response = some 2 := by decide
/-- V82. -/
theorem test_atxt_pri :
    (issue (fresh 8 none) 0x6000000000002000007D).response = some 0x033132350000 := by decide
/-- V86. -/
theorem test_atxt_ext :
    (issue (fresh 8 none) 0x6000000000004000007D).response = some 0x043031323500 := by decide
/-- V90. -/
theorem test_atxt_ext_five_digits :
    (issue (fresh 8 none) 0x600000000000400027FF).response = some 0x053130323339 := by decide
/-- Program P5, step 6. -/
theorem test_new :
    shown (issue (holding (fresh 8 none) [0xC0, 0x03] 0 0) 0x70000000000000000000) = ([], 0, 0) := by
  decide
/-- Program P4, step 5: an aborted block ignores `NEW`. -/
theorem test_new_aborted :
    (issue abortedBlock 0x70000000000000000000).response = some 0x12000000000000 ∧
      shown (issue abortedBlock 0x70000000000000000000) = ([0x03], 0, 0) := by decide

/-- V142: the observation functions. -/
theorem test_observations :
    let s := holding (fresh 8 none) [0xA6] 0x90 4
    s.results = [0xA6, 0x90] ∧ s.bitsRem = 4 ∧ s.count = 2 ∧ s.validLast = 4 ∧ s.nbits = 12 ∧
      s.memRead 1 = (0x90, true) ∧ s.memRead 2 = (0, false) := by decide

/-! ### Witnesses: states and operands that meet the hypotheses of the statements -/

/-- For ResetAloneLeavesTheAbortedState: an aborted block whose next input is reset, and its step. -/
theorem witness_reset :
    let s : State := { abortedBlock with pending := [.reset] }
    s.aborted = true ∧ s.pending = .reset :: [] ∧ step s = .next State.reset ∧
      State.reset.aborted = false := ⟨by decide, by decide, rfl, rfl⟩

/-- For InvariantHoldsAfterReset and LayoutsAreInjectiveInsideEachClass: the reference instance, and an
instance whose limits are the largest. -/
theorem witness_legal_config :
    Config.reference.legal ∧
      ({ wordBits := 1, maxWords := some 1, primaryLimit := 128, extendedLimit := 16384,
         accessoryLimit := 512, signalLimit := 2048, sigInvertMid := true } : Config).legal := by decide

/-- For StepKeepsInvariant, EveryStepCompletes and StepConsumesOneInputAndKeepsParameters: a bounded
block that holds 12 bits, a live one, and its step to a full store. -/
theorem witness_invariant :
    (given boundedBlock [0x10040000000000000003]).Inv ∧
      step (given boundedBlock [0x10040000000000000003]) =
        .next (issue boundedBlock 0x10040000000000000003) ∧
      (issue boundedBlock 0x10040000000000000003).aborted = false ∧
      (issue boundedBlock 0x10040000000000000003).results = [0xA6, 0x93] :=
  ⟨by decide, rfl, by decide, by decide⟩

/-- For StepRunsTheDecodedInstruction and DecodedInstructionIsWellFormed. -/
theorem witness_decoded_instruction :
    (given State.reset [0x100300000000000000FD]).pending =
        .command (tableCommand 80 0x100300000000000000FD) :: [] ∧
      decode (tableCommand 80 0x100300000000000000FD) = .ok (.add .w8 0xFD 3) ∧
      (Instr.add .w8 0xFD 3).wellFormed = true := ⟨rfl, by rfl, by decide⟩

/-- For StepRunsThePresentedTableWord. -/
theorem witness_table_word :
    decodeTableWord 80 0x3000000000000000FFBB = some (.addu8 0xBB) := by decide

/-- For StepWithoutInputChangesNothing. -/
theorem witness_no_input : State.reset.pending = [] := rfl

/-- For StepDependsOnSpecStateAndInputOnly: two states that differ in the last response and in the
later inputs. -/
theorem witness_agreeing_states :
    let s := given boundedBlock [0x20000000000000000001]
    let s' : State := { given boundedBlock [0x20000000000000000001, 0] with response := some 0 }
    AgreeOnSpecState s s' ∧ s ≠ s' ∧
      s.pending = .command (tableCommand 80 0x20000000000000000001) :: [] ∧
      s'.pending = .command (tableCommand 80 0x20000000000000000001) :: [.command 0] ∧
      step s = .next (left (step s)) ∧ step s' = .next (left (step s')) :=
  ⟨⟨rfl, rfl, rfl, rfl⟩, by decide, rfl, rfl, rfl, rfl⟩

/-- For AbortedBlockOnlyAnswersTheStoredCode, AbortIsStickyAlongRuns and NewEmptiesThePackerOnly: an
aborted block, a legal and an illegal word waiting, and its run over both. -/
theorem witness_aborted :
    let s := given abortedBlock [0x70000000000000000000, 0]
    s.aborted = true ∧ s.Inv ∧ HostInput.reset ∉ s.pending.take 2 ∧
      s.pending = .command (tableCommand 80 0x70000000000000000000) :: [.command 0] ∧
      Host.Core.run core 2 s = .next { abortedBlock with pending := [] } :=
  ⟨by decide, by decide, by decide, rfl, rfl⟩

/-- For AbortEntryIsPrecise: each of the four codes is raised by a step of a live block. -/
theorem witness_abort_entry :
    (fresh 8 (some 2)).aborted = false ∧
      (step (given State.reset [0x4000000000002000007F]) =
        .next (issue State.reset 0x4000000000002000007F) ∧
        (issue State.reset 0x4000000000002000007F).abortCode = 1) ∧
      (step (given State.reset [0x10000000000000000005]) =
        .next (issue State.reset 0x10000000000000000005) ∧
        (issue State.reset 0x10000000000000000005).abortCode = 2) ∧
      (step (given State.reset [0]) = .next (issue State.reset 0) ∧
        (issue State.reset 0).abortCode = 3) ∧
      step (given boundedBlock [0x300000000000000000FF]) =
        .next (issue boundedBlock 0x300000000000000000FF) ∧
        (issue boundedBlock 0x300000000000000000FF).abortCode = 4 :=
  ⟨rfl, ⟨rfl, by decide⟩, ⟨rfl, by decide⟩, ⟨rfl, by decide⟩, rfl, by decide⟩

/-- For IllegalWordsAndOnlyTheyRaiseIllegalCommand and DecoderRejectsExactlyTheIllegalWords: an illegal
word (`ADD` with `SEL = 4`), and a legal one (`SEL = 3`) that aborts with another code. -/
theorem witness_illegal_word :
    let s := given State.reset [0x18010000000000000000]
    let s' := given State.reset [0x16410000000000000001]
    s.aborted = false ∧ s.pending = .command (tableCommand 80 0x18010000000000000000) :: [] ∧
      IllegalWord (tableCommand 80 0x18010000000000000000) ∧
      s'.pending = .command (tableCommand 80 0x16410000000000000001) :: [] ∧
      ¬IllegalWord (tableCommand 80 0x16410000000000000001) ∧
      step s' = .next (left (step s')) ∧ (left (step s')).aborted = true :=
  ⟨rfl, rfl, by unfold IllegalWord; decide, rfl, by unfold IllegalWord; decide, rfl, by decide⟩

/-- The decode fields of a word: `OP`, `SEL`, `Z`, `LEN`, and the tags of `DATA[63:61]`, `DATA[31:29]`. -/
def fieldsOf (word : Nat) : Nat × Nat × Nat × Nat × Nat × Nat :=
  let c : Command := BitVec.ofNat 80 word
  ((c.extractLsb' 76 4).toNat, (c.extractLsb' 73 3).toNat, (c.extractLsb' 71 2).toNat,
    (c.extractLsb' 64 7).toNat, (c.extractLsb' 61 3).toNat, (c.extractLsb' 29 3).toNat)

/-- For the `OtherWordsAreIllegal` clause of each command's statement: a live block, and for each `OP`
words of V118, V120, V121, V119, V122, V123, V124, V125, V127, V128 and V130 that miss one field of
what the command admits. -/
theorem witness_other_words :
    (given State.reset [0x18010000000000000000]).aborted = false ∧
      [0x18010000000000000000, 0x110800000000000000FF, 0x20010000000000000001,
        0x3A000000000000000000, 0x300800000000000000BB, 0x42000000000020000003,
        0x400000000000A0000000, 0x5000E000000020000000, 0x60000000000000000000,
        0x60000000000060000001, 0x70800000000000000000, 0x72000000000000000000].map fieldsOf =
        [(1, 4, 0, 1, 0, 0), (1, 0, 2, 8, 0, 0), (2, 0, 0, 1, 0, 0), (3, 5, 0, 0, 0, 0),
          (3, 0, 0, 8, 0, 0), (4, 1, 0, 0, 0, 1), (4, 0, 0, 0, 0, 5), (5, 0, 0, 0, 7, 1),
          (6, 0, 0, 0, 0, 0), (6, 0, 0, 0, 0, 3), (7, 0, 1, 0, 0, 0), (7, 1, 0, 0, 0, 0)] := by decide

/-- For OutOfRangeAddressAbortsFirst: a live block, and every class at its limit, the second operand of
`ACMP` among them. -/
theorem witness_out_of_range :
    State.reset.aborted = false ∧
      (∃ a ∈ addressOperands (.addaPri 127), OutOfRange State.reset.config a) ∧
      (∃ a ∈ addressOperands (.addaExt 10240), OutOfRange State.reset.config a) ∧
      (∃ a ∈ addressOperands (.addaAcc 512), OutOfRange State.reset.config a) ∧
      (∃ a ∈ addressOperands (.addaSig 2048), OutOfRange State.reset.config a) ∧
      (∃ a ∈ addressOperands (.acmp .broadcast (.signal 2048)), OutOfRange State.reset.config a) ∧
      (∃ a ∈ addressOperands (.atxtPri 127), OutOfRange State.reset.config a) ∧
      ∃ a ∈ addressOperands (.atxtExt 10240), OutOfRange State.reset.config a :=
  ⟨rfl, ⟨.primary 127, .head _, by unfold OutOfRange; decide⟩,
    ⟨.extended 10240, .head _, by unfold OutOfRange; decide⟩,
    ⟨.accessory 512, .head _, by unfold OutOfRange; decide⟩,
    ⟨.signal 2048, .head _, by unfold OutOfRange; decide⟩,
    ⟨.signal 2048, .tail _ (.head _), by unfold OutOfRange; decide⟩,
    ⟨.primary 127, .head _, by unfold OutOfRange; decide⟩,
    ⟨.extended 10240, .head _, by unfold OutOfRange; decide⟩⟩

/-- For ValidPayloadsAreThoseOfTheTable: the values of R4, and each class on both sides of its limit. -/
theorem witness_valid_payloads :
    Config.reference.specValues ∧
      (Address.primary 126).inRange Config.reference = true ∧
      (Address.primary 127).inRange Config.reference = false ∧
      (Address.extended 10239).inRange Config.reference = true ∧
      (Address.extended 10240).inRange Config.reference = false ∧
      (Address.accessory 511).inRange Config.reference = true ∧
      (Address.accessory 512).inRange Config.reference = false ∧
      (Address.signal 2047).inRange Config.reference = true ∧
      (Address.signal 2048).inRange Config.reference = false := by decide

/-- For DecodeOfEncodeIsTheInstruction: the largest value each width of `ADD` admits. -/
theorem witness_well_formed :
    (Instr.add .w8 0xFF 127).wellFormed = true ∧ (Instr.add .w16 0xFFFF 0).wellFormed = true ∧
      (Instr.add .w64 0xFFFFFFFFFFFFFFFF 64).wellFormed = true := by decide

/-- For UnusedDataBitsAreIgnored: two different words for each clause. -/
theorem witness_unused_bits :
    let c : Command := 0x3000000000000000FFBB
    let c' : Command := 0x300000000000000000BB
    let b : Command := 0x2000FFFFFFFFFFFFFFFE
    let b' : Command := 0x20000000000000000000
    let x : Command := 0x4000DEADBEEF01234567
    let x' : Command := 0x40000000000000000000
    let y : Command := 0x60000000000120000003
    let y' : Command := 0x60000000000020000003
    let n : Command := 0x7000FFFFFFFFFFFFFFFF
    let n' : Command := 0x70000000000000000000
    (c.extractLsb' 64 16 = c'.extractLsb' 64 16 ∧ (c.extractLsb' 76 4).toNat = 3 ∧
      ∀ j < 8 * 2 ^ (c.extractLsb' 73 3).toNat, c.getLsbD j = c'.getLsbD j) ∧
    (b.extractLsb' 64 16 = b'.extractLsb' 64 16 ∧ (b.extractLsb' 76 4).toNat = 2 ∧
      b.getLsbD 0 = b'.getLsbD 0) ∧
    (x.extractLsb' 64 16 = x'.extractLsb' 64 16 ∧ (x.extractLsb' 76 4).toNat = 4 ∧
      x.extractLsb' 29 3 = 0 ∧ x'.extractLsb' 29 3 = 0) ∧
    (y.extractLsb' 64 16 = y'.extractLsb' 64 16 ∧ (y.extractLsb' 76 4).toNat = 6 ∧
      y.extractLsb' 0 32 = y'.extractLsb' 0 32) ∧
    n.extractLsb' 64 16 = n'.extractLsb' 64 16 ∧ (n.extractLsb' 76 4).toNat = 7 := by decide

/-- For AppendLoopIsStreamAppend, PackingIsComposable, ResultsAndBitsRemOfTheStore,
CountNbitsAndValidLast, StreamPositionInResults and SerialisedResultsAreTheStream: canonical stores that
are empty, that end on a word boundary, and that end with one bit in a word of one bit less than full. -/
theorem witness_canonical_store :
    Memory.empty.wf 8 ∧ Memory.empty.count = 0 ∧ Memory.empty.used = 0 ∧
      ({ words := [0x03], cur := 0, used := 0 } : Memory).wf 8 ∧
      0 < ({ words := [0x03], cur := 0, used := 0 } : Memory).count ∧
      ({ words := [0xFF], cur := 0xFE, used := 7 } : Memory).wf 8 ∧
      14 < ({ words := [0xFF], cur := 0xFE, used := 7 } : Memory).nbits 8 ∧
      ({ words := [1, 0, 1], cur := 0, used := 0 } : Memory).wf 1 ∧ 0x1B < 2 ^ 5 := by decide

/-- For StreamDeterminesTheStore: the two stores of composability (V27) have one stream. -/
theorem witness_equal_streams :
    let m := (Memory.empty.appendBits 8 5 3).appendBits 8 0x1B 5
    let m' := Memory.empty.appendBits 8 0xBB 8
    m.wf 8 ∧ m'.wf 8 ∧ m.stream 8 = m'.stream 8 := by decide

/-- For the statements on the commands that pack, from a live state that has the invariant: bits that
just fit a bounded store, and bits that do not. -/
theorem witness_fits :
    boundedBlock.Inv ∧ boundedBlock.aborted = false ∧ Fits boundedBlock 4 ∧ ¬Fits boundedBlock 5 := by
  refine ⟨by decide, rfl, fun limit h => ?_, fun h => absurd (h 2 rfl) (by decide)⟩
  obtain rfl : 2 = limit := by simpa [boundedBlock, holding, fresh, State.resetWith, Config.ofInstance] using h
  decide

/-- An unbounded block takes any number of bits. -/
theorem witness_fits_unbounded : State.reset.Inv ∧ State.reset.aborted = false ∧ Fits State.reset 64 :=
  ⟨by decide, rfl, fun _ h => by cases h⟩

/-- For AddAppendsTheLowBitsOfItsValue: `DATA` whose bits above the natural width are not zero, and the
lengths at both ends of the legal range and just outside it. -/
theorem witness_add :
    (0xFFFFFFABCD : BitVec 64).toNat % 2 ^ ValueWidth.w16.bits = (0xABCD : BitVec 64).toNat ∧
      (0 : BitVec 7).toNat = 0 ∧ ValueWidth.w8.bits < (9 : BitVec 7).toNat ∧
      (1 ≤ (1 : BitVec 7).toNat ∧ (1 : BitVec 7).toNat ≤ ValueWidth.w8.bits) ∧
      (1 ≤ (64 : BitVec 7).toNat ∧ (64 : BitVec 7).toNat ≤ ValueWidth.w64.bits) := by decide

/-- For AddIgnoresBitsAboveItsLength: V21 and V22. -/
theorem witness_add_mask :
    (4 : BitVec 7).toNat ≤ ValueWidth.w32.bits ∧ (4 : BitVec 7).toNat ≤ ValueWidth.w8.bits ∧
      (0xFFFFFFAB : BitVec 64).toNat % 2 ^ (4 : BitVec 7).toNat =
        (0x0B : BitVec 64).toNat % 2 ^ (4 : BitVec 7).toNat := by decide

/-- For OnlyNewAndResetRemovePackedBits. -/
theorem witness_growth :
    let s := given boundedBlock [0x20000000000000000001]
    s.Inv ∧ step s = .next (left (step s)) ∧ (∀ rest, s.pending ≠ .reset :: rest) ∧
      ∀ c rest, s.pending = .command c :: rest → decode c ≠ .ok .new := by
  refine ⟨by decide, rfl, fun rest h => ?_, fun c rest h => ?_⟩
  · cases h
  · injection h with h _
    injection h with h
    rw [← h, show decode (tableCommand 80 0x20000000000000000001) = .ok (.addb true) from rfl]
    intro h
    cases h

/-- Two legal `ADD`s, at the smallest and at the largest length. -/
def twoAdds : List AddOperands :=
  [{ vw := .w8, value := 0xFF, len := 1 }, { vw := .w64, value := 0x123456789ABCDEF0, len := 64 }]

/-- For RunOfAddsPacksTheConcatenation. -/
theorem witness_run_of_adds :
    let s : State := { State.reset with
      pending := twoAdds.map (fun a => .command (encode a.instr)) ++ [.reset] }
    s.Inv ∧ s.aborted = false ∧ s.config.maxWords = none ∧ (∀ a ∈ twoAdds, a.legal) ∧
      s.pending = twoAdds.map (fun a => .command (encode a.instr)) ++ [.reset] :=
  ⟨by decide, rfl, rfl, by unfold AddOperands.legal; decide, rfl⟩

/-- For AddbAppendsOneBit: `DATA` with other bits set. -/
theorem witness_addb :
    (0xFFFFFFFFFFFFFFFE : BitVec 64).getLsbD 0 = false ∧ (1 : BitVec 64).getLsbD 0 = true := by decide

/-- For the statements on address commands: operands that carry each class, `broadcast` with stray
payload bits. -/
theorem witness_address_operands :
    CarriesAddress 0x01234567 .broadcast ∧ CarriesAddress 0x2000007F (.primary 127) ∧
      CarriesAddress 0x400027FF (.extended 10239) ∧ CarriesAddress 0x600001FF (.accessory 511) ∧
      CarriesAddress 0x800007FF (.signal 2047) := by
  unfold CarriesAddress
  decide

/-- For AddaPri, AddaExt, AddaAcc, AddaSig, AtxtPri and AtxtExt: the reference instance has the limits
(the state of `witness_fits_unbounded`), and the payloads on both sides of each. -/
theorem witness_limits :
    State.reset.config.primaryLimit = 127 ∧ State.reset.config.extendedLimit = 10240 ∧
      State.reset.config.accessoryLimit = 512 ∧ State.reset.config.signalLimit = 2048 ∧
      ((126 : BitVec 29).toNat ≤ 126 ∧ 127 ≤ (127 : BitVec 29).toNat) ∧
      ((10239 : BitVec 29).toNat ≤ 10239 ∧ 10240 ≤ (10240 : BitVec 29).toNat) ∧
      ((511 : BitVec 29).toNat ≤ 511 ∧ 512 ≤ (512 : BitVec 29).toNat) ∧
      ((2047 : BitVec 29).toNat ≤ 2047 ∧ 2048 ≤ (2048 : BitVec 29).toNat) := by decide

/-- For AddressCommandsDoWhatTheirExpansionsDo: each class at its last valid payload succeeds. -/
theorem witness_address_commands :
    State.reset.config.sigInvertMid = false ∧
      (∃ t, exec .addaBcast State.reset = .next t ∧ t.aborted = false) ∧
      (∃ t, exec (.addaPri 126) State.reset = .next t ∧ t.aborted = false) ∧
      (∃ t, exec (.addaExt 10239) State.reset = .next t ∧ t.aborted = false) ∧
      (∃ t, exec (.addaAcc 511) State.reset = .next t ∧ t.aborted = false) ∧
      ∃ t, exec (.addaSig 2047) State.reset = .next t ∧ t.aborted = false :=
  ⟨rfl, ⟨_, rfl, by decide⟩, ⟨_, rfl, by decide⟩, ⟨_, rfl, by decide⟩, ⟨_, rfl, by decide⟩,
    ⟨_, rfl, by decide⟩⟩

/-- For AddressWordsFromAByteBoundary: a bounded block with one word and room for just two more. -/
theorem witness_byte_boundary :
    let s := holding (fresh 8 (some 3)) [0x03] 0 0
    s.Inv ∧ s.aborted = false ∧ s.config.wordBits = 8 ∧ s.config.specValues ∧ s.mem.used = 0 ∧
      Fits s 16 := by
  refine ⟨by decide, rfl, rfl, by decide, rfl, fun limit h => ?_⟩
  obtain rfl : 3 = limit := by simpa [holding, fresh, State.resetWith, Config.ofInstance] using h
  decide

/-- For LayoutsAreInjectiveInsideEachClass: valid addresses of one class with the same fields. -/
theorem witness_same_fields :
    Config.reference.legal ∧ (Address.signal 2047).inRange Config.reference = true ∧
      (Address.signal 2047).fields Config.reference = (Address.signal 2047).fields Config.reference :=
  ⟨by decide, by decide, rfl⟩

/-- For AcmpAnswersTheOrderOfTheKeys: valid pairs for each answer, and an invalid one. -/
theorem witness_acmp :
    ¬OutOfRange State.reset.config (.primary 126) ∧ ¬OutOfRange State.reset.config (.extended 0) ∧
      addressKey (.primary 126) < addressKey (.extended 0) ∧
      addressKey .broadcast < addressKey (.primary 0) ∧
      OutOfRange State.reset.config (.primary 127) := by
  unfold OutOfRange
  decide

/-- For ComparisonIsAStrictTotalOrder: a chain across three classes. -/
theorem witness_order :
    Address.broadcast.compare (.primary 0) = .lt ∧
      (Address.primary 0).compare (.extended 0) = .lt := by decide

/-- For ReadPortReadsResults: the last started word, and the first index past it. -/
theorem witness_read_port : 1 < boundedBlock.count ∧ boundedBlock.count ≤ 2 := by decide

end Sys2Proof.Tests
end

section
/-! The outputs `RESULTS` and `BITSREM` of a word store (10_state.md R16, R17), and the outputs of the
empty store, which are those after reset (R23). -/

namespace Sys2Proof.Machine

/-! ### On a word boundary and inside a word -/

theorem Memory.results_of_used_eq_zero {m : Memory} (h : m.used = 0) : m.results = m.words :=
  if_pos h

theorem Memory.results_of_used_pos {m : Memory} (h : 0 < m.used) : m.results = m.words ++ [m.cur] :=
  if_neg h.ne'

theorem Memory.bitsRem_of_used_eq_zero {m : Memory} (w : Nat) (h : m.used = 0) : m.bitsRem w = 0 :=
  if_pos h

theorem Memory.bitsRem_of_used_pos {m : Memory} (w : Nat) (h : 0 < m.used) :
    m.bitsRem w = w - m.used :=
  if_neg h.ne'

/-- The two cases of R17 in one formula: at `used = 0` the bare `W - used` would be `W`, which the
remainder takes to 0. -/
theorem Memory.bitsRem_eq_mod (w : Nat) (m : Memory) : m.bitsRem w = (w - m.used) % w := by
  rcases Nat.eq_zero_or_pos m.used with h | h
  · rw [Memory.bitsRem_of_used_eq_zero w h, h, Nat.sub_zero, Nat.mod_self]
  · rw [Memory.bitsRem_of_used_pos w h]
    rcases Nat.eq_zero_or_pos w with rfl | hw
    · rw [Nat.zero_sub, Nat.zero_mod]
    · rw [Nat.mod_eq_of_lt (Nat.sub_lt hw h)]

theorem Memory.bitsRem_lt {w : Nat} (hw : 0 < w) (m : Memory) : m.bitsRem w < w :=
  m.bitsRem_eq_mod w ▸ Nat.mod_lt _ hw

/-! ### The empty store -/

@[simp] theorem Memory.results_empty : Memory.empty.results = [] := rfl
@[simp] theorem Memory.bitsRem_empty (w : Nat) : Memory.empty.bitsRem w = 0 := rfl
@[simp] theorem Memory.count_empty : Memory.empty.count = 0 := rfl
@[simp] theorem Memory.validLast_empty (w : Nat) : Memory.empty.validLast w = 0 := rfl
@[simp] theorem Memory.nbits_empty (w : Nat) : Memory.empty.nbits w = 0 := rfl

/-! ### The obligations of this family -/

/-- Settles O46: the two cases of `used`, then the remainder form, whose bound is `0 < W`, which a
canonical store has because `used < W`. -/
theorem resultsAndBitsRemOfTheStore : Obligations.ResultsAndBitsRemOfTheStore := by
  intro w m ⟨_, hused, _, _⟩
  have hw : 0 < w := Nat.zero_lt_of_lt hused
  exact ⟨fun h => ⟨Memory.results_of_used_eq_zero h, Memory.bitsRem_of_used_eq_zero w h⟩,
    fun h => ⟨Memory.results_of_used_pos h, Memory.bitsRem_of_used_pos w h⟩,
    Memory.bitsRem_eq_mod w m, Nat.le_sub_one_of_lt (Memory.bitsRem_lt hw m)⟩

/-- Settles O1: reset leaves the empty store and the flag cleared, and the outputs are those of the
empty store at whatever width the instance has. -/
theorem resetStateValues : Obligations.ResetStateValues := by
  intro cfg
  exact ⟨rfl, rfl, rfl, State.resetWith_aborted cfg, State.resetWith_abortCode cfg,
    Memory.results_empty, Memory.bitsRem_empty cfg.wordBits, Memory.count_empty,
    Memory.validLast_empty cfg.wordBits, Memory.nbits_empty cfg.wordBits⟩

end Sys2Proof.Machine
end

section
/-! The serialisation of `RESULTS` (20_memory.md R26). -/

namespace Sys2Proof.Machine

/-- `NBITS` counts the bits of the completed words and then the bits used in the current word. -/
theorem Memory.nbits_eq_length_add_used (w : Nat) (m : Memory) :
    m.nbits w = (m.words.flatMap (fun x => bitsMSB x w)).length + m.used := by
  simp [Memory.nbits, List.length_flatMap, Nat.mul_comm]

/-- Settles O49: `NBITS` reaches past the completed words by `used` bits. On a word boundary nothing
follows them in either list; inside a word the current word follows them in `RESULTS`, and its first
`used` bits are the end of the stream. -/
theorem serialisedResultsAreTheStream : Obligations.SerialisedResultsAreTheStream := by
  intro w m _
  rw [Memory.nbits_eq_length_add_used, Memory.stream]
  rcases Nat.eq_zero_or_pos m.used with h | h
  · rw [Memory.results_of_used_eq_zero h, h, Nat.add_zero, List.take_length, List.take_zero,
      List.append_nil]
  · rw [Memory.results_of_used_pos h, List.flatMap_append, List.take_length_add_append,
      List.flatMap_singleton]

end Sys2Proof.Machine
end

section
/-! The illegal command words (30_encoding.md R46): the decoder rejects a word exactly when its bits
meet one of the eight conditions, and such a word, and no other, raises `IllegalCommand` (R90). -/

namespace Sys2Proof

/-- The decoder's answer is a rejection, whatever the reason. -/
def Rejects (r : Except IllegalReason Instr) : Prop := ∃ reason, r = .error reason

@[simp] theorem rejects_error (reason : IllegalReason) : Rejects (.error reason) := ⟨reason, rfl⟩

@[simp] theorem not_rejects_ok (i : Instr) : ¬Rejects (.ok i) := nofun

/-! ### The tables of R40, R41 and R44 -/

/-- The number that R40 gives an operation in the `OP` field. -/
def Operation.code : Operation → Nat
  | .add => 1
  | .addb => 2
  | .addu => 3
  | .adda => 4
  | .acmp => 5
  | .atxt => 6
  | .new => 7

theorem operationOf_eq_none_iff (op : BitVec 4) :
    operationOf op = none ↔ op.toNat = 0 ∨ 8 ≤ op.toNat := by
  revert op; decide

theorem toNat_of_operationOf_eq_some {op : BitVec 4} {o : Operation} :
    operationOf op = some o → op.toNat = o.code := by
  cases o <;> (revert op; decide)

theorem widthOfSel_eq_none_iff (sel : BitVec 3) : widthOfSel sel = none ↔ 4 ≤ sel.toNat := by
  revert sel; decide

theorem addrTag_of_addressOf_eq_some {aop : BitVec 32} {a : Address} (h : addressOf aop = some a) :
    (addrTag aop).toNat = a.rank := by
  unfold addressOf at h
  split_ifs at h with h0 h1 h2 h3 h4 <;> cases h
  · exact congrArg BitVec.toNat h0
  · exact congrArg BitVec.toNat h1
  · exact congrArg BitVec.toNat h2
  · exact congrArg BitVec.toNat h3
  · exact congrArg BitVec.toNat h4

theorem addressOf_eq_none_iff (aop : BitVec 32) :
    addressOf aop = none ↔ 5 ≤ (addrTag aop).toNat := by
  unfold addressOf
  split_ifs <;> simp only [false_iff, true_iff] <;> bv_omega

/-- The tag of the low operand stands in `DATA[31:29]`. -/
theorem addrTag_addrLow (c : Command) : addrTag c.addrLow = c.extractLsb' 29 3 := by
  ext j hj
  simp [addrTag, Command.addrLow]

/-- The tag of the high operand stands in `DATA[63:61]`. -/
theorem addrTag_addrHigh (c : Command) : addrTag c.addrHigh = c.extractLsb' 61 3 := by
  ext j hj
  simp [addrTag, Command.addrHigh, show 29 + j < 32 by omega, ← Nat.add_assoc]

/-! ### What each operation's decoder rejects -/

theorem rejects_withoutSelLen (c : Command) (r : Except IllegalReason Instr) :
    Rejects (withoutSelLen c r) ↔
      (c.extractLsb' 73 3).toNat ≠ 0 ∨ (c.extractLsb' 64 7).toNat ≠ 0 ∨ Rejects r := by
  have hsel : c.sel ≠ 0 ↔ (c.extractLsb' 73 3).toNat ≠ 0 := BitVec.toNat_ne
  have hlen : c.len ≠ 0 ↔ (c.extractLsb' 64 7).toNat ≠ 0 := BitVec.toNat_ne
  rw [← hsel, ← hlen, withoutSelLen]
  split_ifs with h₁ h₂
  · exact iff_of_true (rejects_error _) (.inl h₁)
  · exact iff_of_true (rejects_error _) (.inr (.inl h₂))
  · simp only [h₁, h₂, false_or]

theorem rejects_decodeAdd (c : Command) :
    Rejects (decodeAdd c) ↔ 4 ≤ (c.extractLsb' 73 3).toNat := by
  rw [← Command.sel, ← widthOfSel_eq_none_iff, decodeAdd]
  cases widthOfSel c.sel <;> simp

theorem rejects_decodeAddu (c : Command) :
    Rejects (decodeAddu c) ↔
      4 ≤ (c.extractLsb' 73 3).toNat ∨ (c.extractLsb' 64 7).toNat ≠ 0 := by
  have hlen : c.len ≠ 0 ↔ (c.extractLsb' 64 7).toNat ≠ 0 := BitVec.toNat_ne
  rw [← hlen, ← Command.sel, ← widthOfSel_eq_none_iff, decodeAddu]
  cases widthOfSel c.sel with
  | none => simp
  | some vw =>
    dsimp only
    split_ifs with h
    · exact iff_of_true (rejects_error _) (.inr h)
    · exact iff_of_false (not_rejects_ok _) (not_or.mpr ⟨nofun, h⟩)

theorem rejects_decodeAdda (c : Command) :
    Rejects (decodeAdda c) ↔ 5 ≤ (c.extractLsb' 29 3).toNat := by
  rw [← addrTag_addrLow, ← addressOf_eq_none_iff, decodeAdda]
  cases addressOf c.addrLow <;> simp

theorem rejects_decodeAcmp (c : Command) :
    Rejects (decodeAcmp c) ↔ 5 ≤ (c.extractLsb' 61 3).toNat ∨ 5 ≤ (c.extractLsb' 29 3).toNat := by
  rw [← addrTag_addrHigh, ← addrTag_addrLow, ← addressOf_eq_none_iff, ← addressOf_eq_none_iff,
    decodeAcmp]
  cases addressOf c.addrHigh <;> cases addressOf c.addrLow <;> simp

/-- R86: `broadcast`, `accessory` and `signal` have no text form. -/
theorem rejects_atxtOf (a : Address) :
    Rejects (atxtOf a) ↔ a.rank = 0 ∨ a.rank = 3 ∨ a.rank = 4 := by
  cases a <;> simp [atxtOf, Address.rank]

theorem rejects_decodeAtxt (c : Command) :
    Rejects (decodeAtxt c) ↔
      5 ≤ (c.extractLsb' 29 3).toNat ∨ (c.extractLsb' 29 3).toNat = 0 ∨
        (c.extractLsb' 29 3).toNat = 3 ∨ (c.extractLsb' 29 3).toNat = 4 := by
  rw [← addrTag_addrLow, decodeAtxt]
  have hnone := addressOf_eq_none_iff c.addrLow
  match ha : addressOf c.addrLow with
  | none => simp [hnone.mp ha]
  | some a =>
    have htag : ¬5 ≤ (addrTag c.addrLow).toNat := by simp [← hnone, ha]
    simp only [rejects_atxtOf, addrTag_of_addressOf_eq_some ha] at htag ⊢
    simp [htag]

/-! ### What the decoder rejects -/

/-- `OP` and `Z` are checked first; once they are legal, what is left of R46 are the conditions that
the selected operation puts on `SEL`, `LEN` and the address tags. -/
theorem rejects_decode_iff_illegalWord (c : Command) :
    Rejects (decode c) ↔ Machine.IllegalWord c := by
  have hz : c.z ≠ 0 ↔ (c.extractLsb' 71 2).toNat ≠ 0 := BitVec.toNat_ne
  unfold Machine.IllegalWord decode
  match ho : operationOf c.op with
  | none =>
    have hop := (operationOf_eq_none_iff c.op).mp ho
    exact iff_of_true (rejects_error _) (.inl hop)
  | some o =>
    have hop : (c.extractLsb' 76 4).toNat = o.code := toNat_of_operationOf_eq_some ho
    dsimp only
    split_ifs with h
    · exact iff_of_true (rejects_error _) (.inr (.inl (hz.mp h)))
    · rw [hz] at h
      cases o with
      | add =>
        simp only [Operation.code, rejects_decodeAdd] at hop ⊢
        omega
      | addu =>
        simp only [Operation.code, rejects_decodeAddu] at hop ⊢
        omega
      | addb | new =>
        simp only [Operation.code, rejects_withoutSelLen, not_rejects_ok, or_false] at hop ⊢
        omega
      | adda | acmp | atxt =>
        simp only [Operation.code, rejects_withoutSelLen, rejects_decodeAdda, rejects_decodeAcmp,
          rejects_decodeAtxt] at hop ⊢
        omega

end Sys2Proof

namespace Sys2Proof.Machine

variable {s : State} {c : Command} {rest : List HostInput}

/-! ### The step of a word, by the decoder's answer -/

theorem step_of_decode_ok {i : Instr} (hp : s.pending = .command c :: rest) (hd : decode c = .ok i) :
    step s = exec i { s with pending := rest } := by
  simp [step, State.takeInput_of_cons hp, hd]

theorem step_of_rejects (ha : s.aborted = false) (hp : s.pending = .command c :: rest)
    (hd : Rejects (decode c)) :
    step s = .next (State.raiseAbort { s with pending := rest } .illegalCommand) := by
  obtain ⟨reason, hd⟩ := hd
  simp [step, State.takeInput_of_cons hp, hd, State.illegalCommand, State.whenLive_of_live, ha]

theorem AbortCode.bits_ne_three {k : AbortCode} (h : k ≠ .illegalCommand) : k.bits ≠ 3 := by
  cases k with
  | illegalCommand => exact absurd rfl h
  | addressRange | fieldLength | capacity => decide

/-- An instruction that aborts a live block does so with another code than `IllegalCommand`'s. -/
theorem abortCode_ne_three_of_exec {i : Instr} {t : State} (ha : s.aborted = false)
    (h : exec i s = .next t) (ht : t.aborted = true) : t.abortCode ≠ 3 := by
  rcases exec_cases h with ⟨hs, -⟩ | ⟨-, k, hk, rfl⟩ | ⟨-, _, -, -, rfl⟩ | ⟨-, -, _, rfl⟩ |
    ⟨-, -, rfl⟩
  · simp [ha] at hs
  · exact AbortCode.bits_ne_three hk
  all_goals simp [ha] at ht

/-! ### The obligation of this family -/

/-- Settles O14: a word is illegal exactly when the decoder rejects it. A rejected word is abort entry
with code 3 in one step; any other word runs an instruction, and what an instruction can do
(`exec_cases`) includes no abort with that code. -/
theorem illegalWordsAndOnlyTheyRaiseIllegalCommand :
    Obligations.IllegalWordsAndOnlyTheyRaiseIllegalCommand := by
  intro s c rest ha hp
  rw [← rejects_decode_iff_illegalWord]
  constructor
  · intro hd
    exact ⟨_, step_of_rejects ha hp hd, rfl⟩
  · intro hd t hstep ht
    match hi : decode c with
    | .error reason => exact absurd ⟨reason, hi⟩ hd
    | .ok i =>
      rw [step_of_decode_ok hp hi] at hstep
      exact abortCode_ne_three_of_exec (s := { s with pending := rest }) ha hstep ht

end Sys2Proof.Machine
end

section
/-! What the packer's commands share: the illegal words of one `OP`, the decoding of a word built from
its fields, and the capacity check and the append loop in the terms of the statements (`Fits` and the
bit stream). -/

namespace Sys2Proof

/-! ### Decoding a word built from its fields -/

@[simp] theorem widthOfSel_sel (vw : ValueWidth) : widthOfSel vw.sel = some vw := by
  cases vw <;> rfl

/-- R43: the value operand is the number in the `vw` low bits of `DATA`. -/
theorem toNat_valueOperand (vw : ValueWidth) (data : BitVec 64) :
    (valueOperand vw data).toNat = data.toNat % 2 ^ vw.bits := by
  have hle : data.toNat % 2 ^ vw.bits < 2 ^ 64 := (Nat.mod_le _ _).trans_lt data.isLt
  rw [valueOperand, BitVec.toNat_setWidth, BitVec.toNat_setWidth, Nat.mod_eq_of_lt hle]

/-- The word of `ADD` (R51): the width code, the length and `DATA` are read back. -/
theorem decode_commandWord_add (vw : ValueWidth) (len : BitVec 7) (data : BitVec 64) :
    decode (commandWord 0b0001 vw.sel len data) = .ok (.add vw (valueOperand vw data) len) := by
  simp [decode, operationOf, decodeAdd]

/-- The word of `NEW` (R55): `DATA` is not read. -/
theorem decode_commandWord_new (data : BitVec 64) :
    decode (commandWord 0b0111 0 0 data) = .ok .new := by
  simp [decode, operationOf, withoutSelLen]

end Sys2Proof

namespace Sys2Proof.Machine

/-- For a command's `IllegalCommand` clause it is enough that R46 calls the words illegal. -/
theorem otherWordsAreIllegal_of_illegalWord {op : Nat}
    {admits : (sel z len tagA tagB : Nat) → Prop}
    (h : ∀ c : Command, (c.extractLsb' 76 4).toNat = op →
      ¬admits (c.extractLsb' 73 3).toNat (c.extractLsb' 71 2).toNat (c.extractLsb' 64 7).toNat
        (c.extractLsb' 61 3).toNat (c.extractLsb' 29 3).toNat → IllegalWord c) :
    OtherWordsAreIllegal op admits := fun s c rest ha hp hop hadmits =>
  (illegalWordsAndOnlyTheyRaiseIllegalCommand s c rest ha hp).1 (h c hop hadmits)

/-! ### The append loop and the bit stream -/

/-- The loop of R52 appends the `rem` low bits of `v`: a round places the `k >= 1` highest of them
(`placeSlice_stream`), and the rounds that follow place the `rem - k` others. -/
theorem Memory.appendLoop_stream {w v : Nat} (fuel : Nat) :
    ∀ {rem : Nat} {m : Memory}, rem ≤ fuel → m.wf w →
      (Memory.appendLoop w v fuel rem m).stream w = m.stream w ++ bitsMSB v rem := by
  induction fuel with
  | zero =>
    intro rem m hrem _
    obtain rfl : rem = 0 := Nat.le_zero.mp hrem
    simp [Memory.appendLoop]
  | succ fuel ih =>
    intro rem m hrem hwf
    rw [Memory.appendLoop]
    split_ifs with h0
    · simp [h0]
    · have hused : m.used < w := hwf.2.1
      have hround : rem - min rem (w - m.used) ≤ fuel := by omega
      have hsplit : min rem (w - m.used) + (rem - min rem (w - m.used)) = rem := by omega
      rw [ih hround (Memory.placeSlice_wf hwf v rem), Memory.placeSlice_stream hwf,
        List.append_assoc, ← bitsMSB_add, hsplit]

theorem Memory.appendBits_stream {w : Nat} {m : Memory} (h : m.wf w) (v n : Nat) :
    (m.appendBits w v n).stream w = m.stream w ++ bitsMSB v n :=
  Memory.appendLoop_stream n le_rfl h

/-- The bits a field contributes, most significant first (R60). -/
def Field.bits (f : Field) : List Bool := bitsMSB f.value f.len

theorem Memory.appendFields_stream {w : Nat} (fields : List Field) :
    ∀ {m : Memory}, m.wf w →
      (m.appendFields w fields).stream w = m.stream w ++ fields.flatMap Field.bits := by
  induction fields with
  | nil => simp
  | cons f fs ih =>
    intro m h
    rw [Memory.appendFields_cons, ih (Memory.appendBits_wf h _ _), Memory.appendBits_stream h,
      List.append_assoc, List.flatMap_cons, Field.bits]

theorem length_flatMap_bits (fields : List Field) :
    (fields.flatMap Field.bits).length = totalBits fields := by
  induction fields with
  | nil => rfl
  | cons f fs ih => simp [Field.bits, ih]

/-! ### Packing, in the terms of the statements -/

variable {s : State}

/-- The capacity check of R34 is the negation of `Fits`. -/
theorem capacityExceeded_eq_false_iff_fits (s : State) (n : Nat) :
    s.capacityExceeded n = false ↔ Fits s n := by
  cases hmax : s.config.maxWords with
  | none => simp [State.capacityExceeded_unbounded hmax, Fits, hmax]
  | some limit =>
    rw [← Bool.not_eq_true, State.capacityExceeded_bounded hmax]
    simp [Fits, hmax, ceilDiv, Nat.ceilDiv_eq_add_pred_div, State.nbits]

theorem packed_appends (hwf : s.mem.wf s.config.wordBits) (fields : List Field) :
    Appends s (fields.flatMap Field.bits) (s.packed fields) :=
  ⟨Memory.appendFields_wf fields hwf, Memory.appendFields_stream fields hwf, rfl⟩

/-- A command whose operand checks have passed, so that `packFields` is all that is left of it. -/
theorem packsOrOverflows_of_exec_eq_packFields {i : Instr} {fields : List Field}
    (hwf : s.mem.wf s.config.wordBits) (hexec : exec i s = .next (s.packFields fields)) :
    PacksOrOverflows i s (fields.flatMap Field.bits) := by
  unfold PacksOrOverflows
  rw [length_flatMap_bits, ← capacityExceeded_eq_false_iff_fits, hexec]
  rcases s.packFields_cases fields with ⟨hcap, hpack⟩ | ⟨hcap, hpack⟩ <;> rw [hcap, hpack]
  · exact ⟨nofun, fun _ => ⟨_, rfl, rfl⟩⟩
  · exact ⟨fun _ => ⟨_, rfl, packed_appends hwf fields⟩, fun h => absurd rfl h⟩

end Sys2Proof.Machine
end

section
/-! The Bit Packer's commands `ADD` and `NEW` (40_bit_packer.md R51, R54, R55). -/

namespace Sys2Proof.Machine

variable {s : State}

/-! ### `ADD` -/

theorem fieldLengthInvalid_iff (vw : ValueWidth) (len : BitVec 7) :
    fieldLengthInvalid vw len = true ↔ len.toNat = 0 ∨ vw.bits < len.toNat :=
  decide_eq_true_iff

theorem exec_add_of_invalid_length {vw : ValueWidth} {len : BitVec 7} (value : BitVec 64)
    (ha : s.aborted = false) (hlen : len.toNat = 0 ∨ vw.bits < len.toNat) :
    exec (.add vw value len) s = .next (s.raiseAbort .fieldLength) := by
  have hinvalid := (fieldLengthInvalid_iff vw len).mpr hlen
  simp [exec, execAdd, State.whenLive_of_live ha, State.checkLength, hinvalid]

theorem exec_add_of_valid_length {vw : ValueWidth} {len : BitVec 7} (value : BitVec 64)
    (ha : s.aborted = false) (hpos : 1 ≤ len.toNat) (hle : len.toNat ≤ vw.bits) :
    exec (.add vw value len) s =
      .next (s.packFields [{ value := value.toNat, len := len.toNat }]) := by
  have hvalid : fieldLengthInvalid vw len = false := by
    rw [← Bool.not_eq_true, fieldLengthInvalid_iff]
    omega
  simp [exec, execAdd, State.whenLive_of_live ha, State.checkLength, hvalid]

/-- Settles O26: the encoding is read back field by field; a length outside 1 to `vw` ends in abort
entry before the capacity is looked at; any other length leaves one field of `len` bits to pack. -/
theorem addAppendsTheLowBitsOfItsValue : Obligations.AddAppendsTheLowBitsOfItsValue := by
  refine ⟨otherWordsAreIllegal_of_illegalWord fun c hop hadmits => ?_, fun vw value len =>
    ⟨fun data hdata => ?_, fun s hinv ha => ⟨fun hlen => ?_, fun hpos hle => ?_⟩⟩⟩
  · unfold IllegalWord
    omega
  · have hvalue : valueOperand vw data = value :=
      BitVec.eq_of_toNat_eq ((toNat_valueOperand vw data).trans hdata)
    rw [decode_commandWord_add, hvalue]
  · exact ⟨_, exec_add_of_invalid_length value ha hlen, rfl⟩
  · obtain ⟨_, hwf, _⟩ := hinv
    simpa [Field.bits] using
      packsOrOverflows_of_exec_eq_packFields hwf (exec_add_of_valid_length value ha hpos hle)

/-! ### `NEW` -/

theorem exec_new_of_live (ha : s.aborted = false) : exec .new s = .next s.newPacker :=
  congrArg Host.Outcome.next (State.whenLive_of_live ha State.newPacker)

theorem exec_new_of_aborted (ha : s.aborted = true) :
    exec .new s = .next (s.answer (Response.abort s.abortCode)) :=
  congrArg Host.Outcome.next (State.whenLive_of_aborted ha State.newPacker)

/-- Settles O28: `NEW` puts the empty store, which is that of reset, in place of a live block's; an
aborted block ignores it. -/
theorem newEmptiesThePackerOnly : Obligations.NewEmptiesThePackerOnly := by
  refine ⟨otherWordsAreIllegal_of_illegalWord fun c hop hadmits => ?_, decode_commandWord_new,
    fun s => ⟨exec_new_of_live, exec_new_of_aborted, State.resetWith_mem s.config⟩⟩
  unfold IllegalWord
  omega

end Sys2Proof.Machine
end

section
/-! The packable primitives `ADDB`, `ADDU8`, `ADDU16`, `ADDU32` and `ADDU64` (41_packable_primitives.md
R61 to R65). -/

namespace Sys2Proof

/-- The word of `ADDB` (R61): only `DATA[0]` is read. -/
theorem decode_commandWord_addb (data : BitVec 64) :
    decode (commandWord 0b0010 0 0 data) = .ok (.addb (data.getLsbD 0)) := by
  simp [decode, operationOf, withoutSelLen]

/-- The words of `ADDU8` to `ADDU64` (R62 to R65): the width code picks the command. -/
theorem decode_commandWord_addu (vw : ValueWidth) {data : BitVec 64} {i : Instr}
    (h : adduOf vw data = i) : decode (commandWord 0b0011 vw.sel 0 data) = .ok i := by
  simp [decode, operationOf, decodeAddu, h]

end Sys2Proof

namespace Sys2Proof.Machine

variable {s : State}

theorem bitsMSB_ofBool (b : Bool) : bitsMSB (BitVec.ofBool b).toNat 1 = [b] := by
  cases b <;> rfl

/-- A primitive has no operand check of its own: on a live block it is the capacity check and the one
field that carries all bits of its value (R60). -/
theorem packsOrOverflows_primitive {i : Instr} {n : Nat} (hinv : s.Inv) (ha : s.aborted = false)
    (v : BitVec n)
    (hexec : exec i s = .next (s.whenLive fun s => s.packFields [Field.ofBits v])) :
    PacksOrOverflows i s (bitsMSB v.toNat n) := by
  obtain ⟨_, hwf, _⟩ := hinv
  rw [State.whenLive_of_live ha] at hexec
  simpa [Field.bits] using packsOrOverflows_of_exec_eq_packFields hwf hexec

/-- Settles O31: `ADDB` is the primitive whose value has one bit, and the bits of that value are the
boolean alone. -/
theorem addbAppendsOneBit : Obligations.AddbAppendsOneBit := by
  refine ⟨otherWordsAreIllegal_of_illegalWord fun c hop hadmits => ?_, fun b =>
    ⟨fun data hdata => ?_, fun s hinv ha => ?_⟩⟩
  · unfold IllegalWord
    omega
  · rw [decode_commandWord_addb, hdata]
  · rw [← bitsMSB_ofBool b]
    exact packsOrOverflows_primitive hinv ha _ rfl

/-- Settles O32: the width code picks the command and its value is the low part of `DATA`; packing is
the same argument at all four widths. -/
theorem adduAppendsAllBitsOfItsValue : Obligations.AdduAppendsAllBitsOfItsValue := by
  refine ⟨otherWordsAreIllegal_of_illegalWord fun c hop hadmits => ?_,
    fun v hi => decode_commandWord_addu .w8 (congrArg Instr.addu8 BitVec.setWidth_append_eq_right),
    fun v hi => decode_commandWord_addu .w16 (congrArg Instr.addu16 BitVec.setWidth_append_eq_right),
    fun v hi => decode_commandWord_addu .w32 (congrArg Instr.addu32 BitVec.setWidth_append_eq_right),
    fun v => decode_commandWord_addu .w64 rfl, fun s hinv ha => ?_⟩
  · unfold IllegalWord
    omega
  · exact ⟨fun v => packsOrOverflows_primitive hinv ha v rfl,
      fun v => packsOrOverflows_primitive hinv ha v rfl,
      fun v => packsOrOverflows_primitive hinv ha v rfl,
      fun v => packsOrOverflows_primitive hinv ha v rfl⟩

end Sys2Proof.Machine
end

section
/-! The DCC address encoder (42_address_encoder.md): the range check of R70, what the five `ADDA`
commands share, and `ADDA.BCAST`, `ADDA.PRI` and `ADDA.EXT` (R71 to R73). -/

namespace Sys2Proof

/-! ### The words of `ADDA` -/

/-- The decoder's table of R44 is that of the statements. -/
theorem addressOf_of_carriesAddress {aop : BitVec 32} {a : Address}
    (h : Machine.CarriesAddress aop a) : addressOf aop = some a := by
  cases a with
  | broadcast =>
    have htag : addrTag aop = 0 := h
    simp [addressOf, htag]
  | primary n | extended n | accessory n | signal n =>
    obtain ⟨htag, hpayload⟩ := h
    rw [← addrTag] at htag
    rw [← addrPayload] at hpayload
    simp [addressOf, htag, hpayload]

/-- The low address operand of a word whose `DATA` is put together from its two halves. -/
@[simp] theorem addrLow_commandWord (op : BitVec 4) (sel : BitVec 3) (len : BitVec 7)
    (hi aop : BitVec 32) : Command.addrLow (commandWord op sel len (hi ++ aop)) = aop := by
  rw [addrLow_eq, data_commandWord]
  exact BitVec.extractLsb'_append_eq_right

/-- The word of an `ADDA` command (R71 to R75): the class of the low operand picks the command, and
`DATA[63:32]` is not read. -/
theorem decode_commandWord_adda {aop : BitVec 32} {a : Address} (hi : BitVec 32)
    (h : Machine.CarriesAddress aop a) :
    decode (commandWord 0b0100 0 0 (hi ++ aop)) = .ok (addaOf a) := by
  simp [decode, operationOf, withoutSelLen, decodeAdda, addressOf_of_carriesAddress h]

end Sys2Proof

namespace Sys2Proof.Machine

variable {s : State}

/-- The `IllegalCommand` clause that the rules R71 to R75 share. -/
theorem otherWordsAreIllegal_adda :
    OtherWordsAreIllegal 4 (fun sel z len _ tag => sel = 0 ∧ z = 0 ∧ len = 0 ∧ tag < 5) := by
  refine otherWordsAreIllegal_of_illegalWord fun c hop hadmits => ?_
  unfold IllegalWord
  omega

/-! ### The range check of R70 -/

theorem inRange_eq_false_iff_outOfRange (cfg : Config) (a : Address) :
    a.inRange cfg = false ↔ OutOfRange cfg a := by
  cases a <;> simp [Address.inRange, OutOfRange]

theorem State.checkAddress_of_outOfRange {a : Address} (h : OutOfRange s.config a)
    (body : State → State) : s.checkAddress a body = s.raiseAbort .addressRange := by
  rw [State.checkAddress, (inRange_eq_false_iff_outOfRange s.config a).mpr h]
  rfl

theorem State.checkAddress_of_not_outOfRange {a : Address} (h : ¬OutOfRange s.config a)
    (body : State → State) : s.checkAddress a body = body s := by
  rw [← inRange_eq_false_iff_outOfRange, Bool.not_eq_false] at h
  rw [State.checkAddress, if_pos h]

/-! ### What an `ADDA` command does on a live block -/

theorem exec_addaOf_of_live (a : Address) (ha : s.aborted = false) :
    exec (addaOf a) s = .next (s.packAddress a) := by
  cases a <;> exact congrArg Host.Outcome.next (State.whenLive_of_live ha _)

theorem exec_addaOf_of_outOfRange {a : Address} (ha : s.aborted = false)
    (h : OutOfRange s.config a) : exec (addaOf a) s = .next (s.raiseAbort .addressRange) := by
  rw [exec_addaOf_of_live a ha, State.packAddress, State.checkAddress_of_outOfRange h]

/-- An address in range packs the bits of its layout's fields. -/
theorem packsOrOverflows_addaOf {a : Address} (hinv : s.Inv) (ha : s.aborted = false)
    (h : ¬OutOfRange s.config a) :
    PacksOrOverflows (addaOf a) s ((a.fields s.config).flatMap Field.bits) := by
  obtain ⟨_, hwf, _⟩ := hinv
  refine packsOrOverflows_of_exec_eq_packFields hwf ?_
  rw [exec_addaOf_of_live a ha, State.packAddress, State.checkAddress_of_not_outOfRange h]

/-- Settles O15: `ADDA` and `ATXT` check their one operand, `ACMP` both, in order; the check that
fails is abort entry with code 1, and only checks that passed come before it. -/
theorem outOfRangeAddressAbortsFirst : Obligations.OutOfRangeAddressAbortsFirst := by
  rintro i s ha ⟨a, hmem, hout⟩
  refine ⟨s.raiseAbort .addressRange, ?_, rfl⟩
  cases i with
  | add _ _ _ | addb _ | addu8 _ | addu16 _ | addu32 _ | addu64 _ | new => exact nomatch hmem
  | addaBcast | addaPri _ | addaExt _ | addaAcc _ | addaSig _ =>
    cases List.mem_singleton.mp hmem
    exact exec_addaOf_of_outOfRange ha hout
  | atxtPri _ | atxtExt _ =>
    cases List.mem_singleton.mp hmem
    exact congrArg Host.Outcome.next
      ((State.whenLive_of_live ha _).trans (State.checkAddress_of_outOfRange hout _))
  | acmp b c =>
    refine congrArg Host.Outcome.next ((State.whenLive_of_live ha _).trans ?_)
    by_cases hb : OutOfRange s.config b
    · exact State.checkAddress_of_outOfRange hb _
    · have hc : OutOfRange s.config c := by
        rcases List.mem_pair.mp hmem with rfl | rfl
        · exact absurd hout hb
        · exact hout
      exact (State.checkAddress_of_not_outOfRange hb _).trans
        (State.checkAddress_of_outOfRange hc _)

/-! ### The bits of a layout -/

/-- The bits of a field put together from two parts are those of the parts, the high part first. -/
theorem Field.bits_ofBits_append {a b : Nat} (x : BitVec a) (y : BitVec b) :
    (Field.ofBits (x ++ y)).bits = (Field.ofBits x).bits ++ (Field.ofBits y).bits := by
  have hlow : bitsMSB (x ++ y).toNat b = bitsMSB y.toNat b := bitsMSB_congr fun j hj => by
    rw [BitVec.testBit_toNat, BitVec.testBit_toNat, BitVec.getLsbD_append, if_pos hj]
  have hhigh : bitsMSB ((x ++ y).toNat >>> b) a = bitsMSB x.toNat a := bitsMSB_congr fun j _ => by
    rw [Nat.testBit_shiftRight, BitVec.testBit_toNat, BitVec.testBit_toNat, getLsbD_append_skip]
  calc bitsMSB (x ++ y).toNat (a + b)
      = bitsMSB ((x ++ y).toNat >>> b) a ++ bitsMSB (x ++ y).toNat b := bitsMSB_add _ a b
    _ = bitsMSB x.toNat a ++ bitsMSB y.toNat b := by rw [hlow, hhigh]

/-- The `len` bits of a payload from position `lo` up, the highest position first. -/
theorem bitsMSB_shiftRight_eq_bitsOf (n : BitVec 29) (lo len : Nat) :
    bitsMSB (n.toNat >>> lo) len = bitsOf n (List.range' lo len).reverse := by
  induction len with
  | zero => rfl
  | succ len ih =>
    rw [bitsMSB_succ, ih, List.range'_1_concat, List.reverse_concat, Nat.testBit_shiftRight,
      BitVec.testBit_toNat]
    rfl

/-- The field `n[lo+len-1:lo]`. -/
theorem Field.bits_ofBits_extractLsb' (n : BitVec 29) (lo len : Nat) :
    (Field.ofBits (n.extractLsb' lo len)).bits = bitsOf n (List.range' lo len).reverse := by
  rw [← bitsMSB_shiftRight_eq_bitsOf, ← bitsMSB_mod_two_pow, ← BitVec.extractLsb'_toNat]
  rfl

theorem flatMap_bits_broadcastFields :
    broadcastFields.flatMap Field.bits = List.replicate 8 false := rfl

theorem flatMap_bits_primaryFields (n : BitVec 29) :
    (primaryFields n).flatMap Field.bits = false :: bitsOf n [6, 5, 4, 3, 2, 1, 0] := by
  rw [primaryFields, List.flatMap_singleton, Field.bits_ofBits_append,
    Field.bits_ofBits_extractLsb']
  rfl

theorem flatMap_bits_extendedFields (n : BitVec 29) :
    (extendedFields n).flatMap Field.bits =
      [true, true] ++ bitsOf n [13, 12, 11, 10, 9, 8, 7, 6, 5, 4, 3, 2, 1, 0] := by
  rw [extendedFields, List.flatMap_cons, List.flatMap_singleton, Field.bits_ofBits_append,
    Field.bits_ofBits_extractLsb', Field.bits_ofBits_extractLsb']
  rfl

/-- The byte of a primary address spells its number (R72): a payload below 128 has no bit 7. -/
theorem primary_bits_eq_bitsMSB {n : BitVec 29} (h : n.toNat < 2 ^ 7) :
    false :: bitsOf n [6, 5, 4, 3, 2, 1, 0] = bitsMSB n.toNat 8 := by
  rw [bitsMSB_succ, Nat.testBit_lt_two_pow h]
  exact congrArg _ (bitsMSB_shiftRight_eq_bitsOf n 0 7).symm

/-! ### The obligations on `ADDA.BCAST`, `ADDA.PRI` and `ADDA.EXT` -/

/-- Settles O34: `broadcast` is never out of range, so packing its byte is all that is left. -/
theorem addaBcastAppendsEightZeros : Obligations.AddaBcastAppendsEightZeros := by
  refine ⟨otherWordsAreIllegal_adda, fun hi aop h => decode_commandWord_adda hi h,
    fun s hinv ha => ?_⟩
  rw [← flatMap_bits_broadcastFields]
  exact packsOrOverflows_addaOf (a := .broadcast) hinv ha not_false

/-- Settles O35: the limit 127 divides the payloads into those that abort and those whose byte is
packed. -/
theorem addaPriAppendsItsSevenBits : Obligations.AddaPriAppendsItsSevenBits := by
  refine ⟨otherWordsAreIllegal_adda, fun n => ⟨fun hi aop h => decode_commandWord_adda hi h,
    fun s hinv ha hlimit => ?_⟩⟩
  have hrange : OutOfRange s.config (.primary n) ↔ 127 ≤ n.toNat := by rw [OutOfRange, hlimit]
  refine ⟨fun hn => ⟨_, exec_addaOf_of_outOfRange ha (hrange.mpr hn), rfl⟩, fun hn => ⟨?_, ?_⟩⟩
  · rw [← flatMap_bits_primaryFields]
    exact packsOrOverflows_addaOf hinv ha (hrange.not.mpr (by omega))
  · exact primary_bits_eq_bitsMSB (by omega)

/-- Settles O36: the limit 10240 divides the payloads into those that abort and those whose two
bytes are packed. -/
theorem addaExtAppendsItsFourteenBits : Obligations.AddaExtAppendsItsFourteenBits := by
  refine ⟨otherWordsAreIllegal_adda, fun n => ⟨fun hi aop h => decode_commandWord_adda hi h,
    fun s hinv ha hlimit => ?_⟩⟩
  have hrange : OutOfRange s.config (.extended n) ↔ 10240 ≤ n.toNat := by rw [OutOfRange, hlimit]
  refine ⟨fun hn => ⟨_, exec_addaOf_of_outOfRange ha (hrange.mpr hn), rfl⟩, fun hn => ?_⟩
  rw [← flatMap_bits_extendedFields]
  exact packsOrOverflows_addaOf hinv ha (hrange.not.mpr (by omega))

end Sys2Proof.Machine
end

section
/-! Abort entry (60_exceptions.md R93): the one way a live block becomes aborted is `raiseAbort`, by an
instruction's own check or by a word that does not decode. -/

namespace Sys2Proof.Machine

variable {s t : State}

/-- A live block on which an instruction leaves `aborted` set went through abort entry: the other
outcomes (`exec_cases`) keep the flag. -/
theorem eq_raiseAbort_of_exec {i : Instr} (ha : s.aborted = false) (h : exec i s = .next t)
    (ht : t.aborted = true) : ∃ k, t = s.raiseAbort k := by
  rcases exec_cases h with ⟨hs, -⟩ | ⟨-, k, -, rfl⟩ | ⟨-, _, -, -, rfl⟩ | ⟨-, -, _, rfl⟩ |
    ⟨-, -, rfl⟩
  · simp [ha] at hs
  · exact ⟨k, rfl⟩
  all_goals simp [ha] at ht

/-- A step that leads from a live block to an aborted one took its input and went through abort entry;
an idle step and reset leave the flag 0. -/
theorem eq_raiseAbort_of_step (ha : s.aborted = false) (h : step s = .next t)
    (ht : t.aborted = true) : ∃ k, t = State.raiseAbort { s with pending := s.pending.tail } k := by
  rcases step_cases s with ⟨-, hs⟩ | ⟨rest, -, hs⟩ | ⟨c, rest, i, hp, -, hs⟩ |
    ⟨c, rest, reason, hp, hd, -⟩
  · cases hs.symm.trans h
    simp [ha] at ht
  · cases hs.symm.trans h
    simp at ht
  · rw [hp]
    exact eq_raiseAbort_of_exec (s := { s with pending := rest }) ha (hs.symm.trans h) ht
  · cases (step_of_rejects ha hp ⟨reason, hd⟩).symm.trans h
    rw [hp]
    exact ⟨.illegalCommand, rfl⟩

/-- Settles O13: the step is abort entry on the state with its input taken (`eq_raiseAbort_of_step`),
and the codes that abort entry writes are those of R87. -/
theorem abortEntryIsPrecise : Obligations.AbortEntryIsPrecise := by
  intro s t ha h ht
  obtain ⟨k, rfl⟩ := eq_raiseAbort_of_step ha h ht
  obtain ⟨hlow, hhigh⟩ := k.bits_range
  exact ⟨k.bits, hlow, hhigh, rfl⟩

end Sys2Proof.Machine
end

section
/-! The shape of a step (00_scope.md R5, R6): it completes, it takes one input and writes no parameter,
an aborted block only answers (60_exceptions.md R94), and reset alone leaves that state (R95). -/

namespace Sys2Proof.Machine

variable {s t : State} {c : Command} {rest : List HostInput}

/-! ### What every instruction does -/

theorem exec_completes (i : Instr) (s : State) : ∃ t, exec i s = .next t := by
  cases i <;> exact ⟨_, rfl⟩

theorem exec_of_aborted (ha : s.aborted = true) (i : Instr) :
    exec i s = .next (s.answer (Response.abort s.abortCode)) := by
  cases i <;> exact congrArg Host.Outcome.next (State.whenLive_of_aborted ha _)

/-- No instruction writes a parameter or touches the host's later inputs. -/
theorem exec_keeps_config_pending {i : Instr} (h : exec i s = .next t) :
    t.config = s.config ∧ t.pending = s.pending := by
  rcases exec_cases h with ⟨-, rfl⟩ | ⟨-, _, -, rfl⟩ | ⟨-, _, -, -, rfl⟩ | ⟨-, -, _, rfl⟩ |
    ⟨-, -, rfl⟩ <;> exact ⟨rfl, rfl⟩

/-- The check on a word that does not decode answers or aborts, so it leaves the parameters, the word
store and the later inputs. -/
theorem State.illegalCommand_cases (s : State) :
    (s.aborted = true ∧ s.illegalCommand = s.answer (Response.abort s.abortCode)) ∨
      (s.aborted = false ∧ s.illegalCommand = s.raiseAbort .illegalCommand) := by
  cases ha : s.aborted with
  | true => exact .inl ⟨rfl, State.whenLive_of_aborted ha _⟩
  | false => exact .inr ⟨rfl, State.whenLive_of_live ha _⟩

/-! ### The step, by its input -/

theorem step_of_no_input (hp : s.pending = []) : step s = .next s := by
  rw [step, State.takeInput_of_nil hp]

theorem step_of_reset (hp : s.pending = .reset :: rest) :
    step s = .next (State.hardReset { s with pending := rest }) := by
  rw [step, State.takeInput_of_cons hp]

/-- R94 in one step: whether the word decodes or not, an aborted block answers the stored code. -/
theorem step_of_aborted (ha : s.aborted = true) (hp : s.pending = .command c :: rest) :
    step s = .next { s with pending := rest, response := some (Response.abort s.abortCode) } := by
  cases hd : decode c with
  | ok i => exact (step_of_decode_ok hp hd).trans (exec_of_aborted (by exact ha) i)
  | error reason =>
    simp [step, State.takeInput_of_cons hp, hd, State.illegalCommand, State.whenLive_of_aborted, ha,
      State.answer]

/-- An aborted block stays as it is, but for its response and the input it takes, unless that input
is reset. -/
theorem step_keeps_aborted (ha : s.aborted = true) (hreset : HostInput.reset ∉ s.pending.take 1) :
    ∃ t, step s = .next t ∧ t.aborted = true ∧ t.abortCode = s.abortCode ∧ t.mem = s.mem ∧
      t.pending = s.pending.tail := by
  match hp : s.pending with
  | [] => exact ⟨s, step_of_no_input hp, ha, rfl, rfl, hp⟩
  | .command c :: rest => exact ⟨_, step_of_aborted ha hp, ha, rfl, rfl, rfl⟩
  | .reset :: rest => simp [hp] at hreset

/-! ### Runs -/

theorem run_succ_of_step (k : Nat) (h : step s = .next t) :
    Host.Core.run core (k + 1) s = Host.Core.run core k t := by
  have h' : core.step s = .next t := h
  simp only [Host.Core.run, h']

/-! ### The obligations on the shape of a step -/

/-- Settles O5: each of the four kinds of step answers a next state, since every instruction does. -/
theorem everyStepCompletes : Obligations.EveryStepCompletes := by
  intro s
  rcases step_cases s with ⟨-, h⟩ | ⟨rest, -, h⟩ | ⟨c, rest, i, -, -, h⟩ | ⟨c, rest, _, -, -, h⟩
  · exact ⟨_, h⟩
  · exact ⟨_, h⟩
  · obtain ⟨t, ht⟩ := exec_completes i { s with pending := rest }
    exact ⟨t, h.trans ht⟩
  · exact ⟨_, h⟩

/-- Settles O6: the step takes the word and runs what the decoder reads in it; that the instruction is
well formed is not needed. -/
theorem stepRunsTheDecodedInstruction : Obligations.StepRunsTheDecodedInstruction :=
  fun _ _ _ _ hp hd _ => step_of_decode_ok hp hd

theorem decode_of_decodeTableWord {nbits w : Nat} {i : Instr} (h : decodeTableWord nbits w = some i) :
    decode (tableCommand nbits w) = .ok i := by
  unfold decodeTableWord at h
  split at h
  · next hd => rw [hd, Option.some.inj h]
  · cases h

/-- Settles O7: the presented word is the first pending input, and taking it leaves the state as it
was. -/
theorem stepRunsThePresentedTableWord : Obligations.StepRunsThePresentedTableWord :=
  fun s nbits w _ h =>
    step_of_decode_ok (State.present_pending s (tableCommand nbits w)) (decode_of_decodeTableWord h)

/-- Settles O8: there is no input to take. -/
theorem stepWithoutInputChangesNothing : Obligations.StepWithoutInputChangesNothing :=
  fun _ => step_of_no_input

/-- Settles O9: whatever a step does, it does it to the state with its input taken, and no update of
the state writes the parameters or the inputs left. -/
theorem stepConsumesOneInputAndKeepsParameters :
    Obligations.StepConsumesOneInputAndKeepsParameters := by
  intro s t ht
  rcases step_cases s with ⟨hp, h⟩ | ⟨rest, hp, h⟩ | ⟨c, rest, i, hp, -, h⟩ | ⟨c, rest, _, hp, -, h⟩
  · cases h.symm.trans ht
    simp [hp]
  · cases h.symm.trans ht
    simp [hp]
  · rw [hp]
    exact exec_keeps_config_pending (h.symm.trans ht)
  · cases h.symm.trans ht
    rw [hp]
    rcases State.illegalCommand_cases { s with pending := rest } with ⟨-, hi⟩ | ⟨-, hi⟩ <;>
      (rw [hi]; exact ⟨rfl, rfl⟩)

/-- Settles O2: reset puts every item at its reset value; on any other input an aborted block stays
aborted (`step_keeps_aborted`). -/
theorem resetAloneLeavesTheAbortedState : Obligations.ResetAloneLeavesTheAbortedState := by
  refine ⟨fun s rest hp => ⟨_, step_of_reset hp, rfl, rfl, rfl, rfl, rfl, rfl, rfl⟩,
    fun s t h ha ht => ?_⟩
  by_contra hno
  have hreset : HostInput.reset ∉ s.pending.take 1 := by
    match hp : s.pending with
    | [] => simp
    | .command c :: rest => simp
    | .reset :: rest => exact absurd ⟨rest, hp⟩ hno
  obtain ⟨u, hu, hua, -⟩ := step_keeps_aborted ha hreset
  cases hu.symm.trans h
  simp [ht] at hua

/-- Settles O11: the step and every instruction begin with the check of the flag, and the flag makes
the state no good one, so there is no result. -/
theorem abortedBlockOnlyAnswersTheStoredCode : Obligations.AbortedBlockOnlyAnswersTheStoredCode := by
  intro s ha
  have hgood : s.good = false := by simp [State.good, ha]
  exact ⟨fun c rest => step_of_aborted ha, exec_of_aborted ha, hgood, by simp [State.artifact, hgood]⟩

/-- Settles O12, by induction on the number of steps: one step keeps the flag, the code and the store
and takes one input, so no reset is among the inputs of the steps left. -/
theorem abortIsStickyAlongRuns : Obligations.AbortIsStickyAlongRuns := by
  intro k
  induction k with
  | zero =>
    intro s t ha _ hrun
    cases hrun
    exact ⟨ha, rfl, rfl⟩
  | succ k ih =>
    intro s t ha hreset hrun
    have hfirst : HostInput.reset ∉ s.pending.take 1 := fun h =>
      hreset (List.take_subset_take_left _ (Nat.le_add_left 1 k) h)
    obtain ⟨u, hstep, hua, hucode, humem, hupending⟩ := step_keeps_aborted ha hfirst
    have htake : u.pending.take k = (s.pending.take (k + 1)).tail := by
      rw [List.tail_take_eq_take_tail, hupending, Nat.add_sub_cancel]
    have hrest : HostInput.reset ∉ u.pending.take k := fun h =>
      hreset (List.mem_of_mem_tail (htake ▸ h))
    rw [run_succ_of_step k hstep] at hrun
    obtain ⟨hta, htcode, htmem⟩ := ih u t hua hrest hrun
    exact ⟨hta, htcode.trans hucode, htmem.trans humem⟩

end Sys2Proof.Machine
end

section
/-! The outputs of a canonical store in numbers (10_state.md R18), the place of a stream position in
`RESULTS` (20_memory.md R25), and the read port (R31). -/

namespace Sys2Proof.Machine

variable {w : Nat} {m : Memory}

/-! ### `COUNT`, `NBITS` and `VALIDLAST` -/

theorem Memory.count_of_used_eq_zero (h : m.used = 0) : m.count = m.words.length := by
  rw [Memory.count, Memory.results_of_used_eq_zero h]

theorem Memory.count_of_used_pos (h : 0 < m.used) : m.count = m.words.length + 1 := by
  rw [Memory.count, Memory.results_of_used_pos h, List.length_append, List.length_singleton]

/-- The started words have room for the packed bits and the unused ones (R17, R18). -/
theorem Memory.nbits_add_bitsRem (h : m.wf w) : m.nbits w + m.bitsRem w = w * m.count := by
  obtain ⟨-, hused, -, -⟩ := h
  rcases Nat.eq_zero_or_pos m.used with h0 | hpos
  · rw [Memory.nbits, Memory.bitsRem_of_used_eq_zero w h0, Memory.count_of_used_eq_zero h0, h0]
    rfl
  · rw [Memory.nbits, Memory.bitsRem_of_used_pos w hpos, Memory.count_of_used_pos hpos,
      Nat.mul_succ]
    omega

/-- `COUNT` is `NBITS / W` rounded up: the unused bits are fewer than a word. -/
theorem Memory.count_eq_ceilDiv (h : m.wf w) : m.count = m.nbits w ⌈/⌉ w := by
  have hw : 0 < w := Nat.zero_lt_of_lt h.2.1
  have hlt : w - 1 - m.bitsRem w < w := by omega
  have hrem := Memory.bitsRem_lt hw m
  have hsum := Memory.nbits_add_bitsRem h
  have hnum : m.nbits w + w - 1 = w * m.count + (w - 1 - m.bitsRem w) := by omega
  rw [Nat.ceilDiv_eq_add_pred_div, hnum, Nat.mul_add_div hw, Nat.div_eq_of_lt hlt, Nat.add_zero]

/-- Settles O47: the unused bits complete the packed ones to whole words (`nbits_add_bitsRem`), and
`VALIDLAST` is `W` on a word boundary and `used` inside a word. -/
theorem countNbitsAndValidLast : Obligations.CountNbitsAndValidLast := by
  intro w m h
  have hsum := Memory.nbits_add_bitsRem h
  refine ⟨Memory.count_eq_ceilDiv h, by omega, fun h0 => if_pos h0, fun hpos => ?_⟩
  rw [Memory.validLast, if_neg hpos.ne']
  split_ifs with h0
  · rw [Memory.bitsRem_of_used_eq_zero w h0, Nat.sub_zero]
  · rw [Memory.bitsRem_of_used_pos w (Nat.pos_of_ne_zero h0), Nat.sub_sub_self h.2.1.le]

/-! ### Stream positions -/

theorem getElem?_bitsMSB (v : Nat) {n k : Nat} (h : k < n) :
    (bitsMSB v n)[k]? = some (v.testBit (n - 1 - k)) := by
  induction n generalizing k with
  | zero => exact absurd h k.not_lt_zero
  | succ n ih =>
    rw [bitsMSB_succ]
    cases k with
    | zero => simp
    | succ k =>
      rw [List.getElem?_cons_succ, ih (by omega), Nat.add_sub_cancel, Nat.sub_right_comm]
      rfl

/-- In a row of `W`-bit words the bit at position `p` is the bit `p mod W` from the top of the word
`p div W`. -/
theorem getElem?_flatMap_bitsMSB (words : List Word) {p : Nat} (h : p < w * words.length) :
    ∃ x, words[p / w]? = some x ∧
      (words.flatMap fun x => bitsMSB x w)[p]? = some (x.testBit (w - 1 - p % w)) := by
  have hw : 0 < w := Nat.pos_of_ne_zero fun h0 => by simp [h0] at h
  induction words generalizing p with
  | nil => simp at h
  | cons y words ih =>
    rw [List.flatMap_cons]
    rcases Nat.lt_or_ge p w with hp | hp
    · refine ⟨y, by simp [Nat.div_eq_of_lt hp], ?_⟩
      rw [List.getElem?_append_left (by simpa using hp), getElem?_bitsMSB y hp,
        Nat.mod_eq_of_lt hp]
    · rw [List.length_cons, Nat.mul_succ] at h
      obtain ⟨x, hx, hbit⟩ := ih (p := p - w) (by omega)
      refine ⟨x, ?_, ?_⟩
      · rw [Nat.div_eq_sub_div hw hp, List.getElem?_cons_succ, hx]
      · rw [List.getElem?_append_right (by simpa using hp), length_bitsMSB, hbit,
          Nat.mod_eq_sub_mod hp]

/-- Settles O48: the stream is the beginning of the serialised `RESULTS`
(`serialisedResultsAreTheStream`), where each word takes `W` positions. -/
theorem streamPositionInResults : Obligations.StreamPositionInResults := by
  intro w m h p hp
  have hlt : p < w * m.results.length := hp.trans_le (Nat.le.intro (Memory.nbits_add_bitsRem h))
  obtain ⟨x, hx, hbit⟩ := getElem?_flatMap_bitsMSB m.results hlt
  refine ⟨x, hx, ?_⟩
  rw [← serialisedResultsAreTheStream w m h, List.getElem?_take_of_lt hp, hbit]

/-! ### The read port -/

theorem Memory.read_of_ge {i : Nat} (h : m.count ≤ i) : m.read i = (0, false) := by
  rw [Memory.read, List.getElem?_eq_none h]

/-- Settles O50: the read looks the index up in `RESULTS`, whose length is `COUNT`. -/
theorem readPortReadsResults : Obligations.ReadPortReadsResults := fun _ _ =>
  ⟨fun h => ⟨_, List.getElem?_eq_getElem h, Memory.read_of_lt h⟩, Memory.read_of_ge⟩

end Sys2Proof.Machine
end

section
/-! The word store and its bit stream (40_bit_packer.md sections 1 and 4): the loop of R52 is the append
to the stream, a canonical store and its stream determine each other, and what follows from both. -/

namespace Sys2Proof.Machine

variable {w : Nat} {m m' : Memory}

/-- Settles O23: `appendBits_stream` at every width. -/
theorem appendLoopIsStreamAppend : Obligations.AppendLoopIsStreamAppend :=
  fun _ v n _ h => Memory.appendBits_stream h v n

/-! ### The stream determines the store -/

theorem testBit_eq_of_bitsMSB_eq {x y n : Nat} (h : bitsMSB x n = bitsMSB y n) :
    ∀ j < n, x.testBit j = y.testBit j := by
  induction n with
  | zero => exact fun j hj => absurd hj j.not_lt_zero
  | succ n ih =>
    obtain ⟨htop, hrest⟩ := List.cons.inj h
    intro j hj
    rcases Nat.lt_succ_iff_lt_or_eq.mp hj with hlt | rfl
    · exact ih hrest j hlt
    · exact htop

/-- An `n`-bit number is determined by its bits. -/
theorem eq_of_bitsMSB_eq {x y n : Nat} (hx : x < 2 ^ n) (hy : y < 2 ^ n)
    (h : bitsMSB x n = bitsMSB y n) : x = y := by
  refine Nat.eq_of_testBit_eq fun j => ?_
  rcases Nat.lt_or_ge j n with hj | hj
  · exact testBit_eq_of_bitsMSB_eq h j hj
  · have hpow : 2 ^ n ≤ 2 ^ j := Nat.pow_le_pow_right Nat.two_pos hj
    rw [Nat.testBit_lt_two_pow (hx.trans_le hpow), Nat.testBit_lt_two_pow (hy.trans_le hpow)]

/-- A row of `w`-bit words is determined by its bits. -/
theorem eq_of_flatMap_bitsMSB_eq {xs ys : List Word} (hlen : xs.length = ys.length)
    (hxs : ∀ x ∈ xs, x < 2 ^ w) (hys : ∀ y ∈ ys, y < 2 ^ w)
    (h : (xs.flatMap fun x => bitsMSB x w) = ys.flatMap fun y => bitsMSB y w) : xs = ys := by
  induction xs generalizing ys with
  | nil => exact (List.length_eq_zero_iff.mp hlen.symm).symm
  | cons x xs ih =>
    cases ys with
    | nil => cases hlen
    | cons y ys =>
      rw [List.flatMap_cons, List.flatMap_cons] at h
      obtain ⟨hhead, htail⟩ := List.append_inj h (by simp)
      rw [List.forall_mem_cons] at hxs hys
      rw [eq_of_bitsMSB_eq hxs.1 hys.1 hhead, ih (Nat.succ.inj hlen) hxs.2 hys.2 htail]

/-- A current word whose `w - u` low bits are zero is determined by its `u` high bits. -/
theorem eq_of_take_bitsMSB_eq {x y u : Nat} (hu : u ≤ w) (hx : x < 2 ^ w) (hy : y < 2 ^ w)
    (hxlow : x % 2 ^ (w - u) = 0) (hylow : y % 2 ^ (w - u) = 0)
    (h : (bitsMSB x w).take u = (bitsMSB y w).take u) : x = y := by
  obtain ⟨k, rfl⟩ := Nat.exists_eq_add_of_le hu
  rw [Nat.add_sub_cancel_left] at hxlow hylow
  rw [take_bitsMSB_add, take_bitsMSB_add] at h
  have hhigh : ∀ z < 2 ^ (u + k), z >>> k < 2 ^ u := fun z hz => by
    rw [Nat.shiftRight_eq_div_pow]
    exact Nat.div_lt_of_lt_mul (by rwa [← Nat.pow_add, Nat.add_comm])
  have hdiv := eq_of_bitsMSB_eq (hhigh x hx) (hhigh y hy) h
  rw [Nat.shiftRight_eq_div_pow, Nat.shiftRight_eq_div_pow] at hdiv
  rw [← Nat.div_add_mod x (2 ^ k), ← Nat.div_add_mod y (2 ^ k), hdiv, hxlow, hylow]

/-- The number of completed words is `NBITS` divided by `W`. -/
theorem Memory.length_words_eq_div (h : m.wf w) : m.words.length = m.nbits w / w := by
  rw [Memory.nbits, Nat.mul_add_div (Nat.zero_lt_of_lt h.2.1), Nat.div_eq_of_lt h.2.1, Nat.add_zero]

/-- `used` is the remainder. -/
theorem Memory.used_eq_mod (h : m.wf w) : m.used = m.nbits w % w := by
  rw [Memory.nbits, Nat.mul_add_mod, Nat.mod_eq_of_lt h.2.1]

/-- Two canonical stores with one stream have as many words and as many used bits as each other, so
the stream splits alike into the bits of the words and those of the current word. -/
theorem Memory.eq_of_stream_eq (h : m.wf w) (h' : m'.wf w) (hs : m.stream w = m'.stream w) :
    m = m' := by
  have hnbits : m.nbits w = m'.nbits w := by
    rw [← Memory.length_stream h, ← Memory.length_stream h', hs]
  have hlen : m.words.length = m'.words.length := by
    rw [Memory.length_words_eq_div h, Memory.length_words_eq_div h', hnbits]
  have hused : m.used = m'.used := by
    rw [Memory.used_eq_mod h, Memory.used_eq_mod h', hnbits]
  obtain ⟨words, cur, used⟩ := m
  obtain ⟨words', cur', used'⟩ := m'
  obtain ⟨hwords, hlt, hcur, hlow⟩ := h
  obtain ⟨hwords', -, hcur', hlow'⟩ := h'
  dsimp only at *
  subst hused
  obtain ⟨hcompleted, htop⟩ := List.append_inj hs (by simp [List.length_flatMap, hlen])
  rw [eq_of_flatMap_bitsMSB_eq hlen hwords hwords' hcompleted,
    eq_of_take_bitsMSB_eq hlt.le hcur hcur' hlow hlow' htop]

/-- Settles O24: the stream fixes the store (`eq_of_stream_eq`), and its length `NBITS` fixes the number
of completed words and `used` by division with remainder. -/
theorem streamDeterminesTheStore : Obligations.StreamDeterminesTheStore := fun _ _ _ h h' =>
  ⟨Memory.eq_of_stream_eq h h', Memory.length_stream h, Memory.length_words_eq_div h,
    Memory.used_eq_mod h⟩

/-! ### Composability -/

theorem bitsMSB_shiftLeft_or {f2 l2 : Nat} (h : f2 < 2 ^ l2) (f1 l1 : Nat) :
    bitsMSB ((f1 <<< l2) ||| f2) (l1 + l2) = bitsMSB f1 l1 ++ bitsMSB f2 l2 := by
  have hhigh : bitsMSB (((f1 <<< l2) ||| f2) >>> l2) l1 = bitsMSB f1 l1 := by
    rw [Nat.shiftRight_or_distrib, Nat.shiftLeft_shiftRight, Nat.shiftRight_eq_div_pow f2,
      Nat.div_eq_of_lt h, Nat.or_zero]
  have hlow : bitsMSB ((f1 <<< l2) ||| f2) l2 = bitsMSB f2 l2 := bitsMSB_congr fun j hj => by
    simp [Nat.testBit_or, Nat.testBit_shiftLeft, hj.not_ge]
  rw [bitsMSB_add, hhigh, hlow]

/-- Settles O25: both sides are canonical and have the same stream, so they are one store. -/
theorem packingIsComposable : Obligations.PackingIsComposable := by
  intro w f1 l1 f2 l2 m h hf2
  have h1 := Memory.appendBits_wf h f1 l1
  refine Memory.eq_of_stream_eq (Memory.appendBits_wf h1 f2 l2) (Memory.appendBits_wf h _ _) ?_
  rw [Memory.appendBits_stream h1, Memory.appendBits_stream h, Memory.appendBits_stream h,
    bitsMSB_shiftLeft_or hf2, List.append_assoc]

/-! ### The masking law -/

/-- A slice does not see the bits above it. -/
theorem sliceBits_mod_two_pow (v : Nat) {lo k n : Nat} (h : lo + k ≤ n) :
    sliceBits (v % 2 ^ n) lo k = sliceBits v lo k := by
  refine Nat.eq_of_testBit_eq fun j => ?_
  simp only [sliceBits, Nat.testBit_mod_two_pow, Nat.testBit_shiftRight]
  rcases Nat.lt_or_ge j k with hj | hj
  · simp [show lo + j < n by omega]
  · simp [hj.not_gt]

theorem Memory.placeSlice_mod_two_pow (v : Nat) {rem n : Nat} (h : rem ≤ n) :
    m.placeSlice w (v % 2 ^ n) rem = m.placeSlice w v rem := by
  rw [Memory.placeSlice, Memory.placeSlice, sliceBits_mod_two_pow v (by omega)]

theorem Memory.appendLoop_mod_two_pow (v : Nat) {n : Nat} (fuel : Nat) :
    ∀ {rem : Nat} {m : Memory}, rem ≤ n →
      Memory.appendLoop w (v % 2 ^ n) fuel rem m = Memory.appendLoop w v fuel rem m := by
  induction fuel with
  | zero => exact fun _ => rfl
  | succ fuel ih =>
    intro rem m h
    rw [Memory.appendLoop, Memory.appendLoop, Memory.placeSlice_mod_two_pow v h,
      ih ((Nat.sub_le _ _).trans h)]

/-- The append reads the `n` low bits of the value alone, in every store, canonical or not. -/
theorem Memory.appendBits_mod_two_pow (m : Memory) (v n : Nat) :
    m.appendBits w (v % 2 ^ n) n = m.appendBits w v n :=
  Memory.appendLoop_mod_two_pow v n le_rfl

theorem State.packFields_mod_two_pow (s : State) (v n : Nat) :
    s.packFields [{ value := v % 2 ^ n, len := n }] = s.packFields [{ value := v, len := n }] := by
  simp [State.packFields, State.packed, Memory.appendBits_mod_two_pow]

/-- Settles O27: an aborted block and an invalid length do not look at the value, and a valid length
leaves the field, of which the append reads the `len` low bits alone. -/
theorem addIgnoresBitsAboveItsLength : Obligations.AddIgnoresBitsAboveItsLength := by
  intro s vw vw' v v' len hle hle' hv
  cases ha : s.aborted with
  | true => rw [exec_of_aborted ha, exec_of_aborted ha]
  | false =>
    rcases Nat.eq_zero_or_pos len.toNat with h0 | hpos
    · rw [exec_add_of_invalid_length v ha (.inl h0), exec_add_of_invalid_length v' ha (.inl h0)]
    · rw [exec_add_of_valid_length v ha hpos hle, exec_add_of_valid_length v' ha hpos hle',
        ← State.packFields_mod_two_pow s v.toNat, hv, State.packFields_mod_two_pow]

end Sys2Proof.Machine
end

section
/-! The invariant: it holds at reset and every step keeps it; and the growth of the packed bits
(40_bit_packer.md section 4, 20_memory.md R33). -/

namespace Sys2Proof.Machine

variable {s t : State}

/-! ### What the append does to the outputs -/

theorem Memory.nbits_appendFields {w : Nat} {m : Memory} (h : m.wf w) (fields : List Field) :
    (m.appendFields w fields).nbits w = m.nbits w + totalBits fields := by
  rw [← Memory.length_stream (Memory.appendFields_wf fields h), Memory.appendFields_stream fields h,
    List.length_append, Memory.length_stream h, length_flatMap_bits]

/-- Where the bits fit, `COUNT` is within `MAXWORDS` after the append: it is the quotient that the
capacity check of R34 looked at. -/
theorem State.withinCapacity_packed (h : s.mem.wf s.config.wordBits) {fields : List Field}
    (hcap : s.capacityExceeded (totalBits fields) = false) :
    (s.packed fields).withinCapacity = true := by
  rw [State.withinCapacity_iff]
  intro limit hlimit
  have hfits := (capacityExceeded_eq_false_iff_fits s _).mp hcap limit hlimit
  have hcount := Memory.count_eq_ceilDiv (Memory.appendFields_wf fields h)
  rw [Memory.nbits_appendFields h] at hcount
  exact hcount.trans_le hfits

/-! ### Each update of the state keeps the invariant -/

/-- R94's answer: the response carries the code that is stored. -/
theorem State.Inv.answer_abort (h : s.Inv) (ha : s.aborted = true) :
    (s.answer (Response.abort s.abortCode)).Inv := by
  obtain ⟨hcfg, hwf, hcode, hcap, -⟩ := h
  exact ⟨hcfg, hwf, hcode, hcap, (State.responseAgrees_of_aborted (s := s.answer _) ha).mpr rfl⟩

theorem State.Inv.answer_ok (h : s.Inv) (ha : s.aborted = false) (d : BitVec 48) :
    (s.answer (Response.ok d)).Inv := by
  obtain ⟨hcfg, hwf, hcode, hcap, -⟩ := h
  exact ⟨hcfg, hwf, hcode, hcap, State.responseAgrees_of_ok ha rfl⟩

/-- Abort entry writes one of the codes 1 to 4 and answers it. -/
theorem State.Inv.raiseAbort (h : s.Inv) (k : AbortCode) : (s.raiseAbort k).Inv := by
  obtain ⟨hcfg, hwf, -, hcap, -⟩ := h
  exact ⟨hcfg, hwf, (State.abortCodeAgrees_of_aborted (s.raiseAbort_aborted k)).mpr k.bits_range,
    hcap, (State.responseAgrees_of_aborted (s.raiseAbort_aborted k)).mpr rfl⟩

theorem State.Inv.packed (h : s.Inv) (ha : s.aborted = false) {fields : List Field}
    (hcap : s.capacityExceeded (totalBits fields) = false) : (s.packed fields).Inv := by
  obtain ⟨hcfg, hwf, hcode, -, -⟩ := h
  rw [State.abortCodeAgrees_of_live ha] at hcode
  exact ⟨hcfg, Memory.appendFields_wf fields hwf, (State.abortCodeAgrees_of_live ha).mpr hcode,
    State.withinCapacity_packed hwf hcap, State.responseAgrees_of_ok ha rfl⟩

/-- A store that holds nothing is within every capacity. -/
theorem State.withinCapacity_of_mem_empty (h : s.mem = Memory.empty) : s.withinCapacity = true := by
  rw [State.withinCapacity_iff]
  intro limit _
  rw [State.count, h, Memory.count_empty]
  exact limit.zero_le

theorem State.Inv.newPacker (h : s.Inv) (ha : s.aborted = false) : s.newPacker.Inv := by
  obtain ⟨hcfg, -, hcode, -, -⟩ := h
  have hw : 1 ≤ s.config.wordBits := hcfg.1
  rw [State.abortCodeAgrees_of_live ha] at hcode
  exact ⟨hcfg, Memory.empty_wf hw, (State.abortCodeAgrees_of_live ha).mpr hcode,
    State.withinCapacity_of_mem_empty rfl, State.responseAgrees_of_ok ha rfl⟩

theorem inv_resetWith {cfg : Config} (h : cfg.legal) : (State.resetWith cfg).Inv := by
  have hw : 1 ≤ cfg.wordBits := h.1
  exact ⟨h, Memory.empty_wf hw, rfl, State.withinCapacity_of_mem_empty rfl,
    State.responseAgrees_of_none rfl rfl⟩

/-! ### Every instruction and every step keeps it -/

theorem exec_keeps_inv {i : Instr} (h : s.Inv) (hexec : exec i s = .next t) : t.Inv := by
  rcases exec_cases hexec with ⟨ha, rfl⟩ | ⟨-, k, -, rfl⟩ | ⟨ha, _, -, hcap, rfl⟩ | ⟨ha, -, d, rfl⟩ |
    ⟨ha, -, rfl⟩
  · exact h.answer_abort ha
  · exact h.raiseAbort k
  · exact h.packed ha hcap
  · exact h.answer_ok ha d
  · exact h.newPacker ha

theorem State.Inv.illegalCommand (h : s.Inv) : s.illegalCommand.Inv := by
  rcases s.illegalCommand_cases with ⟨ha, hi⟩ | ⟨-, hi⟩ <;> rw [hi]
  · exact h.answer_abort ha
  · exact h.raiseAbort .illegalCommand

/-- Settles O4: taking an input touches nothing the invariant speaks of, and then the step is idle,
reset, an instruction (`exec_keeps_inv`) or the check on an illegal word. -/
theorem stepKeepsInvariant : Obligations.StepKeepsInvariant := by
  intro s t hinv ht
  have htaken : ∀ rest, State.Inv { s with pending := rest } := fun _ => hinv
  rcases step_cases s with ⟨-, h⟩ | ⟨rest, -, h⟩ | ⟨c, rest, i, -, -, h⟩ | ⟨c, rest, _, -, -, h⟩
  · cases h.symm.trans ht
    exact hinv
  · cases h.symm.trans ht
    obtain ⟨hcfg, -⟩ := hinv
    exact inv_resetWith hcfg
  · exact exec_keeps_inv (htaken rest) (h.symm.trans ht)
  · cases h.symm.trans ht
    exact (htaken rest).illegalCommand

/-- Settles O3: `inv_resetWith`, and `Config.reference` is legal. -/
theorem invariantHoldsAfterReset : Obligations.InvariantHoldsAfterReset :=
  ⟨fun _ => inv_resetWith, inv_resetWith (by decide), rfl⟩

/-! ### Growth -/

theorem Memory.placeSlice_words_prefix (w v rem : Nat) (m : Memory) :
    m.words <+: (m.placeSlice w v rem).words := by
  unfold Memory.placeSlice
  dsimp only
  split
  · exact List.prefix_append _ _
  · exact List.prefix_rfl

theorem Memory.appendLoop_words_prefix (w v fuel : Nat) :
    ∀ (rem : Nat) (m : Memory), m.words <+: (Memory.appendLoop w v fuel rem m).words := by
  induction fuel with
  | zero => exact fun _ _ => List.prefix_rfl
  | succ fuel ih =>
    intro rem m
    rw [Memory.appendLoop]
    split_ifs
    · exact List.prefix_rfl
    · exact (Memory.placeSlice_words_prefix w v rem m).trans (ih _ _)

/-- The append leaves every completed word where it is. -/
theorem Memory.appendFields_words_prefix (w : Nat) (fields : List Field) :
    ∀ m : Memory, m.words <+: (m.appendFields w fields).words := by
  induction fields with
  | nil => exact fun _ => List.prefix_rfl
  | cons f fs ih =>
    exact fun m => (Memory.appendLoop_words_prefix w f.value f.len f.len m).trans (ih _)

/-- All that an instruction other than `NEW` does to the word store is to append fields, none where it
aborts or only answers. -/
theorem mem_of_exec_ne_new {i : Instr} (hi : i ≠ .new) (h : exec i s = .next t) :
    ∃ fields, t.mem = s.mem.appendFields s.config.wordBits fields := by
  rcases exec_cases h with ⟨-, rfl⟩ | ⟨-, k, -, rfl⟩ | ⟨-, fields, -, -, rfl⟩ | ⟨-, -, d, rfl⟩ |
    ⟨-, rfl, -⟩
  · exact ⟨[], rfl⟩
  · exact ⟨[], rfl⟩
  · exact ⟨fields, rfl⟩
  · exact ⟨[], rfl⟩
  · exact absurd rfl hi

theorem mem_of_step_ne_new (h : step s = .next t) (hreset : ∀ rest, s.pending ≠ .reset :: rest)
    (hnew : ∀ c rest, s.pending = .command c :: rest → decode c ≠ .ok .new) :
    ∃ fields, t.mem = s.mem.appendFields s.config.wordBits fields := by
  rcases step_cases s with ⟨-, hs⟩ | ⟨rest, hp, -⟩ | ⟨c, rest, i, hp, hd, hs⟩ |
    ⟨c, rest, _, -, -, hs⟩
  · cases hs.symm.trans h
    exact ⟨[], rfl⟩
  · exact absurd hp (hreset rest)
  · have hi : i ≠ .new := fun hi => hnew c rest hp (hi ▸ hd)
    exact mem_of_exec_ne_new (s := { s with pending := rest }) hi (hs.symm.trans h)
  · cases hs.symm.trans h
    refine ⟨[], ?_⟩
    rcases State.illegalCommand_cases { s with pending := rest } with ⟨-, hi⟩ | ⟨-, hi⟩ <;>
      (rw [hi]; rfl)

/-- Settles O29: without `NEW` and reset a step only appends fields (`mem_of_step_ne_new`), which
prolongs the completed words, the stream and with it `NBITS`. -/
theorem onlyNewAndResetRemovePackedBits : Obligations.OnlyNewAndResetRemovePackedBits := by
  rintro s t ⟨-, hwf, -⟩ ht hreset hnew
  obtain ⟨fields, hmem⟩ := mem_of_step_ne_new ht hreset hnew
  obtain ⟨hcfg, -⟩ := stepConsumesOneInputAndKeepsParameters s t ht
  rw [State.stream, State.stream, State.nbits, State.nbits, hcfg, hmem,
    Memory.appendFields_stream fields hwf, Memory.nbits_appendFields hwf]
  exact ⟨Memory.appendFields_words_prefix _ fields _, List.prefix_append _ _, Nat.le_add_right _ _⟩

end Sys2Proof.Machine
end

section
/-! The encoding (30_encoding.md): decode of encode, the words that are rejected, the `DATA` bits that
are ignored, and the response record (R48). -/

namespace Sys2Proof

/-! ### The words of `ACMP` and `ATXT` -/

/-- The high address operand of a word whose `DATA` is put together from its two halves. -/
@[simp] theorem addrHigh_commandWord (op : BitVec 4) (sel : BitVec 3) (len : BitVec 7)
    (aop lo : BitVec 32) : Command.addrHigh (commandWord op sel len (aop ++ lo)) = aop := by
  rw [addrHigh_eq, data_commandWord]
  exact BitVec.extractLsb'_append_eq_left

/-- The word of `ACMP` (R82). -/
theorem decode_commandWord_acmp {aop bop : BitVec 32} {a b : Address}
    (ha : Machine.CarriesAddress aop a) (hb : Machine.CarriesAddress bop b) :
    decode (commandWord 0b0101 0 0 (aop ++ bop)) = .ok (.acmp a b) := by
  simp [decode, operationOf, withoutSelLen, decodeAcmp, addressOf_of_carriesAddress ha,
    addressOf_of_carriesAddress hb]

/-- The word of an `ATXT` command (R84 to R86): `DATA[63:32]` is not read. -/
theorem decode_commandWord_atxt {aop : BitVec 32} {a : Address} (hi : BitVec 32)
    (h : Machine.CarriesAddress aop a) :
    decode (commandWord 0b0110 0 0 (hi ++ aop)) = atxtOf a := by
  simp [decode, operationOf, withoutSelLen, decodeAtxt, addressOf_of_carriesAddress h]

/-! ### Decode of encode -/

theorem carriesAddress_operand (a : Address) : Machine.CarriesAddress a.operand a := by
  cases a with
  | broadcast => exact addrTag_append 0#3 0#29
  | primary n => exact ⟨addrTag_append 1#3 n, addrPayload_append 1#3 n⟩
  | extended n => exact ⟨addrTag_append 2#3 n, addrPayload_append 2#3 n⟩
  | accessory n => exact ⟨addrTag_append 3#3 n, addrPayload_append 3#3 n⟩
  | signal n => exact ⟨addrTag_append 4#3 n, addrPayload_append 4#3 n⟩

/-- A value of `vw` bits is its own operand. -/
theorem valueOperand_of_lt {vw : ValueWidth} {value : BitVec 64} (h : value.toNat < 2 ^ vw.bits) :
    valueOperand vw value = value :=
  BitVec.eq_of_toNat_eq ((toNat_valueOperand vw value).trans (Nat.mod_eq_of_lt h))

theorem getLsbD_zero_data_addb (b : Bool) : (Instr.addb b).data.getLsbD 0 = b := by
  cases b <;> rfl

/-- A value extended to the 64 bits of `DATA` and cut back. -/
theorem setWidth_setWidth_sixty_four {n : Nat} (v : BitVec n) (h : n ≤ 64) :
    (v.setWidth 64).setWidth n = v := by
  rw [BitVec.setWidth_setWidth_of_le v h, BitVec.setWidth_eq]

/-- Settles O17, instruction by instruction: the word of each row is read back by the decoder of its
operation; only `ADD` needs that the instruction is well formed. -/
theorem decodeOfEncodeIsTheInstruction : Obligations.DecodeOfEncodeIsTheInstruction := by
  intro i hwf
  cases i with
  | add vw value len =>
    have hlt : value.toNat < 2 ^ vw.bits := of_decide_eq_true hwf
    exact (decode_commandWord_add vw len value).trans (by rw [valueOperand_of_lt hlt])
  | addb b => exact (decode_commandWord_addb _).trans (by rw [getLsbD_zero_data_addb])
  | addu8 v =>
    exact decode_commandWord_addu .w8
      (congrArg Instr.addu8 (setWidth_setWidth_sixty_four v (by decide)))
  | addu16 v =>
    exact decode_commandWord_addu .w16
      (congrArg Instr.addu16 (setWidth_setWidth_sixty_four v (by decide)))
  | addu32 v =>
    exact decode_commandWord_addu .w32
      (congrArg Instr.addu32 (setWidth_setWidth_sixty_four v (by decide)))
  | addu64 v => exact decode_commandWord_addu .w64 rfl
  | addaBcast | addaPri _ | addaExt _ | addaAcc _ | addaSig _ =>
    exact decode_commandWord_adda 0#32 (carriesAddress_operand _)
  | acmp a b => exact decode_commandWord_acmp (carriesAddress_operand a) (carriesAddress_operand b)
  | atxtPri _ | atxtExt _ => exact decode_commandWord_atxt 0#32 (carriesAddress_operand _)
  | new => exact decode_commandWord_new 0

/-! ### What the decoder answers -/

/-- Settles O18: a rejection is an error of the decoder, and `rejects_decode_iff_illegalWord` says
which words have one. -/
theorem decoderRejectsExactlyTheIllegalWords : Obligations.DecoderRejectsExactlyTheIllegalWords :=
  rejects_decode_iff_illegalWord

/-- The instruction in the decoder's answer, if there is one, is well formed. -/
def AnswersWellFormed (r : Except IllegalReason Instr) : Prop :=
  ∀ i, r = .ok i → i.wellFormed = true

theorem answersWellFormed_error (reason : IllegalReason) : AnswersWellFormed (.error reason) := nofun

theorem answersWellFormed_ok {i : Instr} (h : i.wellFormed = true) : AnswersWellFormed (.ok i) := by
  rintro _ ⟨⟩
  exact h

theorem answersWellFormed_withoutSelLen (c : Command) {r : Except IllegalReason Instr}
    (h : AnswersWellFormed r) : AnswersWellFormed (withoutSelLen c r) := by
  unfold withoutSelLen
  split_ifs
  · exact answersWellFormed_error _
  · exact answersWellFormed_error _
  · exact h

/-- The operand of `ADD` is a remainder by `2^vw` (R43). -/
theorem answersWellFormed_decodeAdd (c : Command) : AnswersWellFormed (decodeAdd c) := by
  unfold decodeAdd
  split
  · exact answersWellFormed_error _
  · next vw _ =>
    have hlt : (valueOperand vw c.data).toNat < 2 ^ vw.bits := by
      rw [toNat_valueOperand]
      exact Nat.mod_lt _ (Nat.two_pow_pos _)
    exact answersWellFormed_ok (decide_eq_true hlt)

theorem answersWellFormed_decodeAddu (c : Command) : AnswersWellFormed (decodeAddu c) := by
  unfold decodeAddu
  split
  · exact answersWellFormed_error _
  · next vw _ =>
    split_ifs
    · exact answersWellFormed_error _
    · exact answersWellFormed_ok (by cases vw <;> rfl)

theorem answersWellFormed_decodeAdda (c : Command) : AnswersWellFormed (decodeAdda c) := by
  unfold decodeAdda
  split
  · exact answersWellFormed_error _
  · next a _ => exact answersWellFormed_ok (by cases a <;> rfl)

theorem answersWellFormed_decodeAcmp (c : Command) : AnswersWellFormed (decodeAcmp c) := by
  unfold decodeAcmp
  split
  · exact answersWellFormed_ok rfl
  · exact answersWellFormed_error _
  · exact answersWellFormed_error _

theorem answersWellFormed_atxtOf (a : Address) : AnswersWellFormed (atxtOf a) := by
  cases a with
  | primary _ | extended _ => exact answersWellFormed_ok rfl
  | broadcast | accessory _ | signal _ => exact answersWellFormed_error _

theorem answersWellFormed_decodeAtxt (c : Command) : AnswersWellFormed (decodeAtxt c) := by
  unfold decodeAtxt
  split
  · exact answersWellFormed_error _
  · exact answersWellFormed_atxtOf _

/-- What the decoder answers once `OP` has selected an operation and `Z` is zero. -/
def decodeOperation (c : Command) : Operation → Except IllegalReason Instr
  | .add => decodeAdd c
  | .addb => withoutSelLen c (.ok (.addb (c.data.getLsbD 0)))
  | .addu => decodeAddu c
  | .adda => withoutSelLen c (decodeAdda c)
  | .acmp => withoutSelLen c (decodeAcmp c)
  | .atxt => withoutSelLen c (decodeAtxt c)
  | .new => withoutSelLen c (.ok .new)

theorem decode_of_reserved {c : Command} (h : operationOf c.op = none) :
    decode c = .error .reservedOp := by
  rw [decode, h]

theorem decode_of_operation {c : Command} {o : Operation} (h : operationOf c.op = some o) :
    decode c = if c.z ≠ 0 then .error .nonzeroZ else decodeOperation c o := by
  rw [decode, h]
  cases o <;> rfl

theorem answersWellFormed_decodeOperation (c : Command) (o : Operation) :
    AnswersWellFormed (decodeOperation c o) := by
  cases o with
  | add => exact answersWellFormed_decodeAdd c
  | addb => exact answersWellFormed_withoutSelLen c (answersWellFormed_ok rfl)
  | addu => exact answersWellFormed_decodeAddu c
  | adda => exact answersWellFormed_withoutSelLen c (answersWellFormed_decodeAdda c)
  | acmp => exact answersWellFormed_withoutSelLen c (answersWellFormed_decodeAcmp c)
  | atxt => exact answersWellFormed_withoutSelLen c (answersWellFormed_decodeAtxt c)
  | new => exact answersWellFormed_withoutSelLen c (answersWellFormed_ok rfl)

/-- Settles O19: `decodeAdd` cuts the value to `vw` bits, and every other instruction is well formed
whatever its operands are. -/
theorem decodedInstructionIsWellFormed : Obligations.DecodedInstructionIsWellFormed := by
  intro c
  change AnswersWellFormed (decode c)
  cases ho : operationOf c.op with
  | none =>
    rw [decode_of_reserved ho]
    exact answersWellFormed_error _
  | some o =>
    rw [decode_of_operation ho]
    split_ifs
    · exact answersWellFormed_error _
    · exact answersWellFormed_decodeOperation c o

/-! ### Ignored `DATA` bits -/

section
variable {c c' : Command}

/-- Two words with the same bits 79 to 64 have the same `OP`, `SEL`, `Z` and `LEN`. -/
theorem fields_eq_of_extractLsb'_eq (h : c.extractLsb' 64 16 = c'.extractLsb' 64 16) :
    c.op = c'.op ∧ c.sel = c'.sel ∧ c.z = c'.z ∧ c.len = c'.len := by
  have hsub : ∀ k n, k + n ≤ 16 → c.extractLsb' (64 + k) n = c'.extractLsb' (64 + k) n := by
    intro k n hkn
    ext j hj
    have hbit := congrArg (fun x => x.getLsbD (k + j)) h
    simpa [show k + j < 16 by omega, Nat.add_assoc] using hbit
  exact ⟨hsub 12 4 (by decide), hsub 9 3 (by decide), hsub 7 2 (by decide), hsub 0 7 (by decide)⟩

theorem operationOf_of_toNat_eq {op : BitVec 4} {o : Operation} :
    op.toNat = o.code → operationOf op = some o := by
  cases o <;> (revert op; decide)

/-- Two words with the same fields above `DATA` decode alike if their operation's decoder reads them
alike. -/
theorem decode_congr (h : c.extractLsb' 64 16 = c'.extractLsb' 64 16) {o : Operation}
    (hop : (c.extractLsb' 76 4).toNat = o.code) (ho : decodeOperation c o = decodeOperation c' o) :
    decode c = decode c' := by
  obtain ⟨hopeq, -, hz, -⟩ := fields_eq_of_extractLsb'_eq h
  have hsome : operationOf c.op = some o := operationOf_of_toNat_eq hop
  rw [decode_of_operation hsome, decode_of_operation (hopeq ▸ hsome), hz, ho]

theorem withoutSelLen_congr (h : c.extractLsb' 64 16 = c'.extractLsb' 64 16)
    {r r' : Except IllegalReason Instr} (hr : r = r') :
    withoutSelLen c r = withoutSelLen c' r' := by
  obtain ⟨-, hsel, -, hlen⟩ := fields_eq_of_extractLsb'_eq h
  rw [withoutSelLen, withoutSelLen, hsel, hlen, hr]

/-- The width code counts in powers of two from 8 (R41). -/
theorem bits_of_widthOfSel {sel : BitVec 3} {vw : ValueWidth} :
    widthOfSel sel = some vw → vw.bits = 8 * 2 ^ sel.toNat := by
  cases vw <;> (revert sel; decide)

theorem getLsbD_data (c : Command) {j : Nat} (hj : j < 64) : c.data.getLsbD j = c.getLsbD j := by
  simp [Command.data, hj]

theorem ValueWidth.bits_le (vw : ValueWidth) : vw.bits ≤ 64 := by
  cases vw <;> decide

/-- The low bits of `DATA`, as a word of their number. -/
theorem setWidth_data_congr {n : Nat} (hn : n ≤ 64) (h : ∀ j < n, c.getLsbD j = c'.getLsbD j) :
    c.data.setWidth n = c'.data.setWidth n := by
  ext j hj
  have hj' : j < 64 := by omega
  simpa [getLsbD_data _ hj'] using h j hj

theorem adduOf_congr {vw : ValueWidth} {data data' : BitVec 64}
    (h : data.setWidth vw.bits = data'.setWidth vw.bits) : adduOf vw data = adduOf vw data' := by
  cases vw with
  | w8 => exact congrArg Instr.addu8 h
  | w16 => exact congrArg Instr.addu16 h
  | w32 => exact congrArg Instr.addu32 h
  | w64 => exact congrArg Instr.addu64 (by simpa [ValueWidth.bits] using h)

theorem decodeAdd_congr (h : c.extractLsb' 64 16 = c'.extractLsb' 64 16)
    (hdata : ∀ j < 8 * 2 ^ c.sel.toNat, c.getLsbD j = c'.getLsbD j) : decodeAdd c = decodeAdd c' := by
  obtain ⟨-, hsel, -, hlen⟩ := fields_eq_of_extractLsb'_eq h
  rw [decodeAdd, decodeAdd, ← hsel, ← hlen]
  match hw : widthOfSel c.sel with
  | none => rfl
  | some vw =>
    rw [← bits_of_widthOfSel hw] at hdata
    simp only [valueOperand, setWidth_data_congr vw.bits_le hdata]

theorem decodeAddu_congr (h : c.extractLsb' 64 16 = c'.extractLsb' 64 16)
    (hdata : ∀ j < 8 * 2 ^ c.sel.toNat, c.getLsbD j = c'.getLsbD j) :
    decodeAddu c = decodeAddu c' := by
  obtain ⟨-, hsel, -, hlen⟩ := fields_eq_of_extractLsb'_eq h
  rw [decodeAddu, decodeAddu, ← hsel, ← hlen]
  match hw : widthOfSel c.sel with
  | none => rfl
  | some vw =>
    rw [← bits_of_widthOfSel hw] at hdata
    simp only [adduOf_congr (setWidth_data_congr vw.bits_le hdata)]

/-- An operand whose tag is that of `broadcast` carries it, whatever its payload bits are (R44). -/
theorem addressOf_addrLow_of_broadcast (h : c.extractLsb' 29 3 = 0) :
    addressOf c.addrLow = some .broadcast := by
  rw [addressOf, addrTag_addrLow, if_pos h]

/-- Settles O20: the fields above `DATA` agree, so the same operation's decoder reads both words, and
the bits it reads of `DATA` agree by hypothesis. -/
theorem unusedDataBitsAreIgnored : Obligations.UnusedDataBitsAreIgnored := by
  intro c c' h
  refine ⟨fun hop hdata => ?_, fun hop hbit => ?_, fun hop hlow => ?_, fun hop htag htag' => ?_,
    fun hop => ?_⟩
  · rcases hop with hop | hop
    · exact decode_congr h (o := .add) hop (decodeAdd_congr h hdata)
    · exact decode_congr h (o := .addu) hop (decodeAddu_congr h hdata)
  · have hdata : c.data.getLsbD 0 = c'.data.getLsbD 0 := by
      rwa [getLsbD_data c (by decide), getLsbD_data c' (by decide)]
    exact decode_congr h (o := .addb) hop (withoutSelLen_congr h (by rw [hdata]))
  · have haddr : c.addrLow = c'.addrLow := hlow
    rcases hop with hop | hop
    · exact decode_congr h (o := .adda) hop
        (withoutSelLen_congr h (by rw [decodeAdda, decodeAdda, haddr]))
    · exact decode_congr h (o := .atxt) hop
        (withoutSelLen_congr h (by rw [decodeAtxt, decodeAtxt, haddr]))
  · refine decode_congr h (o := .adda) hop (withoutSelLen_congr h ?_)
    rw [decodeAdda, decodeAdda, addressOf_addrLow_of_broadcast htag,
      addressOf_addrLow_of_broadcast htag']
  · exact decode_congr h (o := .new) hop (withoutSelLen_congr h rfl)

end

/-- Settles O21, word by word. -/
theorem specWordsDecodeToTheirCommands : Obligations.SpecWordsDecodeToTheirCommands :=
  ⟨by decide, by decide, by decide, by decide, by decide, by decide, by decide, by decide⟩

end Sys2Proof

namespace Sys2Proof.Machine

/-! ### The response record -/

/-- The record as a number: its three fields side by side (R48). -/
theorem Response.toNat_pack (status : Bool) (code : BitVec 4) (data : BitVec 48) :
    (Response.pack status code data).toNat =
      (status.toNat * 2 ^ 4 + code.toNat) * 2 ^ 48 + data.toNat := by
  rw [Response.pack, BitVec.toNat_append, ← Nat.shiftLeft_add_eq_or_of_lt data.isLt,
    BitVec.toNat_append, ← Nat.shiftLeft_add_eq_or_of_lt code.isLt, Nat.shiftLeft_eq,
    Nat.shiftLeft_eq, BitVec.toNat_ofBool]

/-- Settles O22: `OK` has status and code 0, `ABORT` has status 1 and data 0. -/
theorem responseRecordLayout : Obligations.ResponseRecordLayout := by
  refine ⟨fun d => ?_, fun k => ?_⟩
  · rw [Response.ok, Response.toNat_pack]
    simp
  · have hdata : (0 : BitVec 48).toNat = 0 := rfl
    rw [Response.abort, Response.toNat_pack, Bool.toNat_true, hdata]
    omega

end Sys2Proof.Machine
end

section
/-! Runs of `ADD`s (40_bit_packer.md section 4), and the expansions of the packable primitives into
`ADD` (30_encoding.md section 6). -/

namespace Sys2Proof.Machine

variable {s : State}

/-! ### A run of legal `ADD`s -/

/-- The one field a legal `ADD` packs. -/
def AddOperands.field (a : AddOperands) : Field := { value := a.value.toNat, len := a.len.toNat }

theorem AddOperands.bits_field (a : AddOperands) : a.field.bits = a.bits := rfl

theorem decode_encode_of_legal {a : AddOperands} (h : a.legal) :
    decode (encode a.instr) = .ok a.instr :=
  decodeOfEncodeIsTheInstruction a.instr (decide_eq_true h.1)

/-- On a live unbounded block the step of a legal `ADD`'s word packs its field. -/
theorem step_of_legal_add {a : AddOperands} {rest : List HostInput} (ha : s.aborted = false)
    (hmax : s.config.maxWords = none) (h : a.legal)
    (hp : s.pending = .command (encode a.instr) :: rest) :
    step s = .next (State.packed { s with pending := rest } [a.field]) := by
  have ⟨_, hpos, hle⟩ := h
  rw [step_of_decode_ok hp (decode_encode_of_legal h), AddOperands.instr,
    exec_add_of_valid_length a.value (by exact ha) hpos hle, State.packFields,
    State.capacityExceeded_unbounded (by exact hmax), if_neg Bool.false_ne_true, AddOperands.field]

/-- Settles O30, by induction on the list: the first word's step packs its field
(`step_of_legal_add`) and keeps what the rest of the run needs, the invariant among it. -/
theorem runOfAddsPacksTheConcatenation : Obligations.RunOfAddsPacksTheConcatenation := by
  intro adds
  induction adds with
  | nil =>
    intro s rest hinv ha _ _ hp
    obtain ⟨-, hwf, -⟩ := hinv
    exact ⟨s, rfl, ha, hp, rfl, hwf, by simp⟩
  | cons a adds ih =>
    intro s rest hinv ha hmax hlegal hp
    rw [List.forall_mem_cons] at hlegal
    obtain ⟨hfirst, hothers⟩ := hlegal
    have ⟨_, hwf, _⟩ := hinv
    have hstep := step_of_legal_add ha hmax hfirst hp
    obtain ⟨t, hrun, hta, htp, htcfg, htwf, htstream⟩ :=
      ih _ rest (stepKeepsInvariant s _ hinv hstep) ha hmax hothers rfl
    refine ⟨t, (run_succ_of_step adds.length hstep).trans hrun, hta, htp, htcfg, htwf, ?_⟩
    obtain ⟨-, hpacked, -⟩ := packed_appends (s := s) hwf [a.field]
    rw [htstream, List.flatMap_cons, ← List.append_assoc, ← a.bits_field,
      ← List.flatMap_singleton Field.bits a.field, ← hpacked]
    rfl

/-! ### The expansions of the primitives -/

/-- `ADD` of a value at its full width is the packing of the field that carries all its bits. -/
theorem exec_add_of_full_width {n : Nat} (v : BitVec n) (vw : ValueWidth) {len : BitVec 7}
    (hlen : len.toNat = n) (hpos : 1 ≤ n) (hle : n ≤ vw.bits) :
    exec (.add vw (v.setWidth 64) len) s =
      .next (s.whenLive fun s => s.packFields [Field.ofBits v]) := by
  have hvalue : (v.setWidth 64).toNat = v.toNat :=
    BitVec.toNat_setWidth_of_le (hle.trans vw.bits_le)
  cases ha : s.aborted with
  | true => rw [exec_of_aborted ha, State.whenLive_of_aborted ha]
  | false =>
    rw [exec_add_of_valid_length _ ha (by omega) (by omega), State.whenLive_of_live ha, hvalue, hlen,
      Field.ofBits]

/-- Settles O33: both sides pack the field that carries all bits of the value
(`exec_add_of_full_width`). -/
theorem primitivesDoWhatTheirExpansionsDo : Obligations.PrimitivesDoWhatTheirExpansionsDo := by
  intro s
  refine ⟨fun b => ?_, fun v => ?_, fun v => ?_, fun v => ?_, fun v => ?_⟩
  · exact (exec_add_of_full_width (BitVec.ofBool b) .w8 rfl (by decide) (by decide)).symm
  · exact (exec_add_of_full_width v .w8 rfl (by decide) (by decide)).symm
  · exact (exec_add_of_full_width v .w16 rfl (by decide) (by decide)).symm
  · exact (exec_add_of_full_width v .w32 rfl (by decide) (by decide)).symm
  · have h := exec_add_of_full_width (s := s) v .w64 (len := 64) rfl (by decide) (by decide)
    rw [BitVec.setWidth_eq] at h
    exact h.symm

end Sys2Proof.Machine
end

section
/-! There is no hidden state (10_state.md section 5): what a step does and answers depends on the
parameters, the items of R9 and its input, not on the last response or on the later inputs. -/

namespace Sys2Proof.Machine

variable {s s' t t' : State}

/-- The effect and the response of an update depend on the parameters and the items of R9 alone. -/
def DependsOnSpecState (f : State → State) : Prop :=
  ∀ s s', AgreeOnSpecState s s' →
    AgreeOnSpecState (f s) (f s') ∧ (f s).response = (f s').response

/-! ### Each operation of the commands is such an update -/

theorem dependsOnSpecState_answer (r : Response) : DependsOnSpecState fun s => s.answer r :=
  fun _ _ h => ⟨h, rfl⟩

theorem dependsOnSpecState_raiseAbort (k : AbortCode) : DependsOnSpecState fun s => s.raiseAbort k :=
  fun _ _ ⟨hcfg, hmem, _, _⟩ => ⟨⟨hcfg, hmem, rfl, rfl⟩, rfl⟩

theorem dependsOnSpecState_newPacker : DependsOnSpecState State.newPacker :=
  fun _ _ ⟨hcfg, _, ha, hcode⟩ => ⟨⟨hcfg, rfl, ha, hcode⟩, rfl⟩

theorem dependsOnSpecState_hardReset : DependsOnSpecState State.hardReset :=
  fun _ _ ⟨hcfg, _, _, _⟩ => ⟨⟨hcfg, rfl, rfl, rfl⟩, rfl⟩

/-- The answer of an aborted block is the stored code, an item of R9. -/
theorem dependsOnSpecState_whenLive {body : State → State} (hbody : DependsOnSpecState body) :
    DependsOnSpecState fun s => s.whenLive body := by
  intro s s' h
  have ⟨_, _, ha, hcode⟩ := h
  dsimp only
  cases hs : s.aborted with
  | true =>
    rw [State.whenLive_of_aborted hs, State.whenLive_of_aborted (ha ▸ hs), ← hcode]
    exact dependsOnSpecState_answer _ s s' h
  | false =>
    rw [State.whenLive_of_live hs, State.whenLive_of_live (ha ▸ hs)]
    exact hbody s s' h

theorem dependsOnSpecState_checkLength (vw : ValueWidth) (len : BitVec 7) {body : State → State}
    (hbody : DependsOnSpecState body) : DependsOnSpecState fun s => s.checkLength vw len body := by
  intro s s' h
  simp only [State.checkLength]
  split_ifs
  · exact dependsOnSpecState_raiseAbort _ s s' h
  · exact hbody s s' h

theorem dependsOnSpecState_checkAddress (a : Address) {body : State → State}
    (hbody : DependsOnSpecState body) : DependsOnSpecState fun s => s.checkAddress a body := by
  intro s s' h
  have ⟨hcfg, _⟩ := h
  simp only [State.checkAddress, ← hcfg]
  split_ifs
  · exact hbody s s' h
  · exact dependsOnSpecState_raiseAbort _ s s' h

/-- The capacity check and the append read the parameters and the word store. -/
theorem dependsOnSpecState_packFields (fields : Config → List Field) :
    DependsOnSpecState fun s => s.packFields (fields s.config) := by
  intro s s' h
  have ⟨hcfg, hmem, ha, hcode⟩ := h
  have hcap : ∀ n, s'.capacityExceeded n = s.capacityExceeded n := fun n => by
    rw [State.capacityExceeded, State.capacityExceeded, hcfg, hmem]
  simp only [State.packFields, hcap, ← hcfg]
  split_ifs
  · exact dependsOnSpecState_raiseAbort _ s s' h
  · refine ⟨⟨hcfg, ?_, ha, hcode⟩, rfl⟩
    rw [State.packed_mem, State.packed_mem, hcfg, hmem]

theorem dependsOnSpecState_packAddress (a : Address) :
    DependsOnSpecState fun s => s.packAddress a :=
  dependsOnSpecState_checkAddress a (dependsOnSpecState_packFields a.fields)

theorem dependsOnSpecState_illegalCommand : DependsOnSpecState State.illegalCommand :=
  dependsOnSpecState_whenLive (dependsOnSpecState_raiseAbort _)

/-! ### Instructions and steps -/

/-- Every instruction is put together from those operations. -/
theorem exec_dependsOnSpecState (i : Instr) :
    ∃ f, DependsOnSpecState f ∧ ∀ s, exec i s = .next (f s) := by
  cases i with
  | add vw value len =>
    exact ⟨_, dependsOnSpecState_whenLive (dependsOnSpecState_checkLength vw len
      (dependsOnSpecState_packFields fun _ => _)), fun _ => rfl⟩
  | addb _ | addu8 _ | addu16 _ | addu32 _ | addu64 _ =>
    exact ⟨_, dependsOnSpecState_whenLive (dependsOnSpecState_packFields fun _ => _), fun _ => rfl⟩
  | addaBcast | addaPri _ | addaExt _ | addaAcc _ | addaSig _ =>
    exact ⟨_, dependsOnSpecState_whenLive (dependsOnSpecState_packAddress _), fun _ => rfl⟩
  | acmp a b =>
    exact ⟨_, dependsOnSpecState_whenLive (dependsOnSpecState_checkAddress a
      (dependsOnSpecState_checkAddress b (dependsOnSpecState_answer _))), fun _ => rfl⟩
  | atxtPri _ | atxtExt _ =>
    exact ⟨_, dependsOnSpecState_whenLive (dependsOnSpecState_checkAddress _
      (dependsOnSpecState_answer _)), fun _ => rfl⟩
  | new => exact ⟨_, dependsOnSpecState_whenLive dependsOnSpecState_newPacker, fun _ => rfl⟩

/-- What a step does with an input, as an update of the state from which the input has been taken. -/
theorem step_dependsOnSpecState (e : HostInput) :
    ∃ f, DependsOnSpecState f ∧
      ∀ s rest, s.pending = e :: rest → step s = .next (f { s with pending := rest }) := by
  cases e with
  | reset => exact ⟨_, dependsOnSpecState_hardReset, fun _ _ => step_of_reset⟩
  | command c =>
    match hd : decode c with
    | .ok i =>
      obtain ⟨f, hf, hexec⟩ := exec_dependsOnSpecState i
      exact ⟨f, hf, fun _ _ hp => (step_of_decode_ok hp hd).trans (hexec _)⟩
    | .error _ =>
      refine ⟨_, dependsOnSpecState_illegalCommand, fun s rest hp => ?_⟩
      rw [step, State.takeInput_of_cons hp]
      simp only [hd]

/-- Settles O10: the two steps are one update of two states that agree, since taking the input leaves
what they agree on. -/
theorem stepDependsOnSpecStateAndInputOnly : Obligations.StepDependsOnSpecStateAndInputOnly := by
  intro s s' t t' e rest rest' h hp hp' ht ht'
  obtain ⟨f, hf, hstep⟩ := step_dependsOnSpecState e
  cases (hstep s rest hp).symm.trans ht
  cases (hstep s' rest' hp').symm.trans ht'
  exact hf _ _ h

end Sys2Proof.Machine
end

section
/-! `ADDA.ACC` and `ADDA.SIG` (42_address_encoder.md R74, R75), and the valid payloads (R69). -/

namespace Sys2Proof.Machine

variable {s : State}

/-! ### The valid payloads -/

/-- Settles O16: each range check is a comparison with its limit, and R4 gives the limits. -/
theorem validPayloadsAreThoseOfTheTable : Obligations.ValidPayloadsAreThoseOfTheTable := by
  rintro cfg ⟨hpri, hext, hacc, hsig, -⟩
  refine ⟨rfl, fun n => ?_⟩
  simp only [Address.inRange, decide_eq_true_eq, hpri, hext, hacc, hsig]
  omega

/-! ### The bits of the two layouts -/

theorem bitsMSB_not_toNat {n : Nat} (v : BitVec n) {k : Nat} (hk : k ≤ n) :
    bitsMSB (~~~v).toNat k = (bitsMSB v.toNat k).map (!·) := by
  induction k with
  | zero => rfl
  | succ k ih =>
    have hbit : (~~~v).getLsbD k = !v.getLsbD k := by simp [show k < n by omega]
    rw [bitsMSB_succ, bitsMSB_succ, List.map_cons, ih (by omega), BitVec.testBit_toNat,
      BitVec.testBit_toNat, hbit]

/-- The complement of a field has the complements of its bits. -/
theorem Field.bits_ofBits_not {n : Nat} (v : BitVec n) :
    (Field.ofBits (~~~v)).bits = (Field.ofBits v).bits.map (!·) :=
  bitsMSB_not_toNat v le_rfl

theorem flatMap_bits_accessoryFields (n : BitVec 29) :
    (accessoryFields n).flatMap Field.bits =
      [true, false] ++ bitsOf n [8, 7, 6, 5, 4, 3] ++ [true] ++ (bitsOf n [2, 1, 0]).map (!·) := by
  rw [accessoryFields, List.flatMap_cons, List.flatMap_singleton, Field.bits_ofBits_append,
    Field.bits_ofBits_append, Field.bits_ofBits_not, Field.bits_ofBits_extractLsb',
    Field.bits_ofBits_extractLsb']
  rfl

/-- `m` of R75: bits 4 to 2, each exclusive-ored with `SIG_INVERT_MID`. -/
theorem bits_ofBits_signalMid (cfg : Config) (n : BitVec 29) :
    (Field.ofBits (signalMid cfg n)).bits =
      (bitsOf n [4, 3, 2]).map (xor cfg.sigInvertMid) := by
  unfold signalMid
  cases cfg.sigInvertMid with
  | false =>
    rw [if_neg Bool.false_ne_true, Field.bits_ofBits_extractLsb',
      show xor false = id from funext Bool.false_xor, List.map_id]
    rfl
  | true =>
    rw [if_pos rfl, Field.bits_ofBits_not, Field.bits_ofBits_extractLsb',
      show xor true = (!·) from funext Bool.true_xor]
    rfl

theorem flatMap_bits_signalFields (cfg : Config) (n : BitVec 29) :
    (signalFields cfg n).flatMap Field.bits =
      [true, false] ++ bitsOf n [10, 9, 8, 7, 6, 5] ++ [false] ++
        (bitsOf n [4, 3, 2]).map (xor cfg.sigInvertMid) ++ [false] ++ bitsOf n [1, 0] ++ [true] := by
  rw [signalFields, List.flatMap_cons, List.flatMap_singleton]
  simp only [Field.bits_ofBits_append, bits_ofBits_signalMid, Field.bits_ofBits_extractLsb']
  rfl

/-! ### The obligations on `ADDA.ACC` and `ADDA.SIG` -/

/-- Settles O37: the limit 512 divides the payloads into those that abort and those whose twelve bits
are packed. -/
theorem addaAccAppendsItsTwelveBits : Obligations.AddaAccAppendsItsTwelveBits := by
  refine ⟨otherWordsAreIllegal_adda, fun n => ⟨fun hi aop h => decode_commandWord_adda hi h,
    fun s hinv ha hlimit => ?_⟩⟩
  have hrange : OutOfRange s.config (.accessory n) ↔ 512 ≤ n.toNat := by rw [OutOfRange, hlimit]
  refine ⟨fun hn => ⟨_, exec_addaOf_of_outOfRange ha (hrange.mpr hn), rfl⟩, fun hn => ?_⟩
  rw [← flatMap_bits_accessoryFields]
  exact packsOrOverflows_addaOf (a := .accessory n) hinv ha (hrange.not.mpr (by omega))

/-- Settles O38: the limit 2048 divides the payloads into those that abort and those whose sixteen
bits are packed, at either value of `SIG_INVERT_MID`. -/
theorem addaSigAppendsItsSixteenBits : Obligations.AddaSigAppendsItsSixteenBits := by
  refine ⟨otherWordsAreIllegal_adda, fun n => ⟨fun hi aop h => decode_commandWord_adda hi h,
    fun s hinv ha hlimit => ?_⟩⟩
  have hrange : OutOfRange s.config (.signal n) ↔ 2048 ≤ n.toNat := by rw [OutOfRange, hlimit]
  refine ⟨fun hn => ⟨_, exec_addaOf_of_outOfRange ha (hrange.mpr hn), rfl⟩, fun hn => ?_⟩
  rw [← flatMap_bits_signalFields]
  exact packsOrOverflows_addaOf (a := .signal n) hinv ha (hrange.not.mpr (by omega))

end Sys2Proof.Machine
end

section
/-! The fields of the address layouts as numbers, and what follows: the layouts are injective inside
each class (42_address_encoder.md section 3), `ADDA.*` does what its expansion does (30_encoding.md
section 6), and the words it leaves from a byte boundary. -/

namespace Sys2Proof

/-- Two bit vectors side by side, as a number. -/
theorem toNat_append_eq_mul_add {a b : Nat} (x : BitVec a) (y : BitVec b) :
    (x ++ y).toNat = x.toNat * 2 ^ b + y.toNat := by
  rw [BitVec.toNat_append, ← Nat.shiftLeft_add_eq_or_of_lt y.isLt, Nat.shiftLeft_eq]

theorem toNat_extractLsb'_eq_div_mod {a : Nat} (x : BitVec a) (lo len : Nat) :
    (x.extractLsb' lo len).toNat = x.toNat / 2 ^ lo % 2 ^ len := by
  rw [BitVec.extractLsb'_toNat, Nat.shiftRight_eq_div_pow]

/-! ### The fields as numbers -/

theorem ofBits_append {a b : Nat} (x : BitVec a) (y : BitVec b) :
    Machine.Field.ofBits (x ++ y) = { value := x.toNat * 2 ^ b + y.toNat, len := a + b } := by
  rw [Machine.Field.ofBits, toNat_append_eq_mul_add]

theorem ofBits_extractLsb' {a : Nat} (x : BitVec a) (lo len : Nat) :
    Machine.Field.ofBits (x.extractLsb' lo len) =
      { value := x.toNat / 2 ^ lo % 2 ^ len, len := len } := by
  rw [Machine.Field.ofBits, toNat_extractLsb'_eq_div_mod]

theorem primaryFields_eq (n : BitVec 29) :
    primaryFields n = [{ value := n.toNat % 128, len := 8 }] := by
  rw [primaryFields, ofBits_append, toNat_extractLsb'_eq_div_mod]
  simp

theorem extendedFields_eq (n : BitVec 29) :
    extendedFields n =
      [{ value := 0xC0 + n.toNat / 256 % 64, len := 8 }, { value := n.toNat % 256, len := 8 }] := by
  rw [extendedFields, ofBits_append, ofBits_extractLsb', toNat_extractLsb'_eq_div_mod]
  simp

theorem accessoryFields_eq (n : BitVec 29) :
    accessoryFields n =
      [{ value := 0x80 + n.toNat / 8 % 64, len := 8 }, { value := 15 - n.toNat % 8, len := 4 }] := by
  have hsum : 8 + (7 - n.toNat % 8) = 15 - n.toNat % 8 := by omega
  rw [accessoryFields, ofBits_append, ofBits_append, BitVec.toNat_not, toNat_extractLsb'_eq_div_mod,
    toNat_extractLsb'_eq_div_mod]
  simp [hsum]

theorem toNat_signalMid (cfg : Config) (n : BitVec 29) :
    (signalMid cfg n).toNat =
      if cfg.sigInvertMid then 7 - n.toNat / 4 % 8 else n.toNat / 4 % 8 := by
  unfold signalMid
  split_ifs
  · rw [BitVec.toNat_not, toNat_extractLsb'_eq_div_mod]
    rfl
  · rw [toNat_extractLsb'_eq_div_mod]
    rfl

theorem signalFields_eq (cfg : Config) (n : BitVec 29) :
    signalFields cfg n =
      [{ value := 0x80 + n.toNat / 32 % 64, len := 8 },
        { value := (signalMid cfg n).toNat * 16 + n.toNat % 4 * 2 + 1, len := 8 }] := by
  have hsum : ((signalMid cfg n).toNat * 2 * 4 + n.toNat % 4) * 2 + 1 =
      (signalMid cfg n).toNat * 16 + n.toNat % 4 * 2 + 1 := by omega
  rw [signalFields, ofBits_append, ofBits_append, toNat_append_eq_mul_add, toNat_append_eq_mul_add,
    toNat_append_eq_mul_add, toNat_extractLsb'_eq_div_mod, toNat_extractLsb'_eq_div_mod]
  simp [hsum]

/-! ### Injectivity -/

theorem primaryFields_inj {n n' : BitVec 29} (hn : n.toNat < 2 ^ 7) (hn' : n'.toNat < 2 ^ 7)
    (h : primaryFields n = primaryFields n') : n = n' := by
  rw [primaryFields_eq, primaryFields_eq] at h
  simp only [List.cons.injEq, Machine.Field.mk.injEq, and_true] at h
  exact BitVec.eq_of_toNat_eq (by omega)

theorem extendedFields_inj {n n' : BitVec 29} (hn : n.toNat < 2 ^ 14) (hn' : n'.toNat < 2 ^ 14)
    (h : extendedFields n = extendedFields n') : n = n' := by
  rw [extendedFields_eq, extendedFields_eq] at h
  simp only [List.cons.injEq, Machine.Field.mk.injEq, and_true] at h
  exact BitVec.eq_of_toNat_eq (by omega)

theorem accessoryFields_inj {n n' : BitVec 29} (hn : n.toNat < 2 ^ 9) (hn' : n'.toNat < 2 ^ 9)
    (h : accessoryFields n = accessoryFields n') : n = n' := by
  rw [accessoryFields_eq, accessoryFields_eq] at h
  simp only [List.cons.injEq, Machine.Field.mk.injEq, and_true] at h
  exact BitVec.eq_of_toNat_eq (by omega)

/-- Inverting the middle bits or not is the same for both addresses, so it loses nothing. -/
theorem signalFields_inj {cfg : Config} {n n' : BitVec 29} (hn : n.toNat < 2 ^ 11)
    (hn' : n'.toNat < 2 ^ 11) (h : signalFields cfg n = signalFields cfg n') : n = n' := by
  rw [signalFields_eq, signalFields_eq] at h
  simp only [List.cons.injEq, Machine.Field.mk.injEq, and_true, toNat_signalMid] at h
  refine BitVec.eq_of_toNat_eq ?_
  split_ifs at h <;> omega

/-- Settles O41, class by class: a legal limit keeps the payload within the bits that the layout
packs. -/
theorem layoutsAreInjectiveInsideEachClass : Obligations.LayoutsAreInjectiveInsideEachClass := by
  rintro cfg ⟨-, -, hpri, hext, hacc, hsig⟩
  refine ⟨fun a b hrank ha hb h => ?_, by rw [Address.fields, Address.fields]; decide⟩
  match a, b with
  | .broadcast, .broadcast => rfl
  | .primary _, .primary _ =>
    exact congrArg _ (primaryFields_inj ((of_decide_eq_true ha).trans_le hpri)
      ((of_decide_eq_true hb).trans_le hpri) h)
  | .extended _, .extended _ =>
    exact congrArg _ (extendedFields_inj ((of_decide_eq_true ha).trans_le hext)
      ((of_decide_eq_true hb).trans_le hext) h)
  | .accessory _, .accessory _ =>
    exact congrArg _ (accessoryFields_inj ((of_decide_eq_true ha).trans_le hacc)
      ((of_decide_eq_true hb).trans_le hacc) h)
  | .signal _, .signal _ =>
    exact congrArg _ (signalFields_inj ((of_decide_eq_true ha).trans_le hsig)
      ((of_decide_eq_true hb).trans_le hsig) h)

end Sys2Proof

namespace Sys2Proof.Machine

variable {s t : State}

/-! ### Room for a part of the bits -/

theorem fits_of_le {n k : Nat} (h : Fits s n) (hk : k ≤ n) : Fits s k := fun limit hlimit => by
  have hn := h limit hlimit
  rw [Nat.ceilDiv_eq_add_pred_div] at hn ⊢
  exact (Nat.div_le_div_right (by omega)).trans hn

theorem packFields_of_fits {fields : List Field} (h : Fits s (totalBits fields)) :
    s.packFields fields = s.packed fields := by
  rw [State.packFields, (capacityExceeded_eq_false_iff_fits s _).mpr h, if_neg Bool.false_ne_true]

/-- After one of two fields there is room for the other. -/
theorem fits_packed {fields : List Field} {k : Nat} (hwf : s.mem.wf s.config.wordBits)
    (h : Fits s (totalBits fields + k)) : Fits (s.packed fields) k := fun limit hlimit => by
  have hn := h limit hlimit
  rwa [← Nat.add_assoc, State.nbits, ← Memory.nbits_appendFields hwf] at hn

/-! ### The expansions -/

/-- The `ADD` of a number below `2^8` with a length of 1 to 8, as the expansions write it. -/
theorem exec_add_of_byte (ha : s.aborted = false) {x len : Nat} (hx : x < 2 ^ 8) (hpos : 1 ≤ len)
    (hle : len ≤ 8) :
    exec (.add .w8 (BitVec.ofNat 64 x) (BitVec.ofNat 7 len)) s =
      .next (s.packFields [{ value := x, len := len }]) := by
  have hvalue : (BitVec.ofNat 64 x).toNat = x := by
    rw [BitVec.toNat_ofNat, Nat.mod_eq_of_lt (by omega)]
  have hlen : (BitVec.ofNat 7 len).toNat = len := by
    rw [BitVec.toNat_ofNat, Nat.mod_eq_of_lt (by omega)]
  rw [exec_add_of_valid_length _ ha (hlen.symm ▸ hpos) (hlen.symm ▸ hle), hvalue, hlen]

/-- An address command that does not abort had an address in range and room for its fields, and packed
them. -/
theorem eq_packed_of_exec_addaOf {a : Address} (ha : s.aborted = false)
    (h : exec (addaOf a) s = .next t) (ht : t.aborted = false) :
    a.inRange s.config = true ∧ Fits s (totalBits (a.fields s.config)) ∧
      t = s.packed (a.fields s.config) := by
  cases (exec_addaOf_of_live a ha).symm.trans h
  rcases s.packAddress_cases a with ⟨-, hp⟩ | ⟨hrange, hp⟩
  · simp [hp] at ht
  · rcases s.packFields_cases (a.fields s.config) with ⟨-, hq⟩ | ⟨hcap, hq⟩
    · simp [hp, hq] at ht
    · exact ⟨hrange, (capacityExceeded_eq_false_iff_fits s _).mp hcap, hp.trans hq⟩

/-- Two `ADD`s of bytes whose fields are those of an address command that packed leave its store. -/
theorem exec_two_adds {fields : List Field} {x y k l : Nat} (hwf : s.mem.wf s.config.wordBits)
    (ha : s.aborted = false) (hfits : Fits s (totalBits fields))
    (hfields : fields = [{ value := x, len := k }, { value := y, len := l }])
    (hx : x < 2 ^ 8) (hy : y < 2 ^ 8) (hk : 1 ≤ k ∧ k ≤ 8) (hl : 1 ≤ l ∧ l ≤ 8) :
    ∃ u u', exec (.add .w8 (BitVec.ofNat 64 x) (BitVec.ofNat 7 k)) s = .next u ∧
      exec (.add .w8 (BitVec.ofNat 64 y) (BitVec.ofNat 7 l)) u = .next u' ∧
      (s.packed fields).mem = u'.mem := by
  subst hfields
  obtain ⟨hkpos, hkle⟩ := hk
  obtain ⟨hlpos, hlle⟩ := hl
  have hfirst : Fits s (totalBits [{ value := x, len := k }]) := fits_of_le hfits (by simp)
  have hsecond : Fits (s.packed [{ value := x, len := k }])
      (totalBits [{ value := y, len := l }]) := fits_packed hwf (by simpa using hfits)
  refine ⟨s.packed [{ value := x, len := k }], _, ?_,
    exec_add_of_byte (s := s.packed _) ha hy hlpos hlle, ?_⟩
  · rw [exec_add_of_byte ha hx hkpos hkle, packFields_of_fits hfirst]
  · rw [packFields_of_fits hsecond]
    rfl

/-- The first byte of a layout: two bits above six of the payload, as the expansions write it. -/
theorem shiftLeft_or_shiftRight_eq {v k : Nat} (c : Nat) (h : v < 2 ^ (k + 6)) :
    c <<< 6 ||| v >>> k = c <<< 6 + v / 2 ^ k % 64 := by
  have hlt : v >>> k < 64 := by
    rw [Nat.shiftRight_eq_div_pow]
    exact Nat.div_lt_of_lt_mul (by rwa [Nat.pow_add] at h)
  rw [← Nat.shiftLeft_add_eq_or_of_lt (i := 6) hlt, ← Nat.shiftRight_eq_div_pow, Nat.mod_eq_of_lt hlt]

/-- The second byte of a signal address, as its expansion writes it. -/
theorem signal_low_byte_eq (v : Nat) :
    (v / 4 % 8) <<< 4 ||| (v &&& 3) <<< 1 ||| 1 = v / 4 % 8 * 16 + v % 4 * 2 + 1 := by
  rw [Nat.and_two_pow_sub_one_eq_mod v 2, Nat.or_assoc,
    ← Nat.shiftLeft_add_eq_or_of_lt (i := 1) (by decide),
    ← Nat.shiftLeft_add_eq_or_of_lt (i := 4) (by omega)]
  omega

/-- Settles O39: the address command that succeeds packed the fields of its layout, and in each class
the numbers of the expansion are those of the fields. -/
theorem addressCommandsDoWhatTheirExpansionsDo :
    Obligations.AddressCommandsDoWhatTheirExpansionsDo := by
  intro s t n hinv ha
  dsimp only
  intro ht
  obtain ⟨⟨-, -, -, hext, hacc, hsig⟩, hwf, -⟩ := hinv
  refine ⟨fun h => ?_, fun h => ?_, fun h => ?_, fun h => ?_, fun h hmid => ?_⟩
  · obtain ⟨-, hfits, rfl⟩ := eq_packed_of_exec_addaOf (a := .broadcast) ha h ht
    exact (exec_add_of_byte ha (by decide) (by decide) le_rfl).trans
      (congrArg _ (packFields_of_fits hfits))
  · obtain ⟨-, hfits, rfl⟩ := eq_packed_of_exec_addaOf (a := .primary n) ha h ht
    have hval : n.toNat &&& 0x7F = n.toNat % 128 := Nat.and_two_pow_sub_one_eq_mod n.toNat 7
    rw [Address.fields, primaryFields_eq] at hfits ⊢
    rw [exec_add_of_byte ha (by omega) (by decide) le_rfl, hval, packFields_of_fits hfits]
  · obtain ⟨hrange, hfits, rfl⟩ := eq_packed_of_exec_addaOf (a := .extended n) ha h ht
    have hlt : n.toNat < 2 ^ 14 := (of_decide_eq_true hrange).trans_le hext
    have hhigh : 0xC0 ||| n.toNat >>> 8 = 0xC0 + n.toNat / 256 % 64 :=
      shiftLeft_or_shiftRight_eq 3 hlt
    have hlow : n.toNat &&& 0xFF = n.toNat % 256 := Nat.and_two_pow_sub_one_eq_mod n.toNat 8
    exact exec_two_adds hwf ha hfits (by rw [Address.fields, extendedFields_eq, hhigh, hlow])
      (by omega) (by omega) (by decide) (by decide)
  · obtain ⟨hrange, hfits, rfl⟩ := eq_packed_of_exec_addaOf (a := .accessory n) ha h ht
    have hlt : n.toNat < 2 ^ 9 := (of_decide_eq_true hrange).trans_le hacc
    have hhigh : 0x80 ||| n.toNat >>> 3 = 0x80 + n.toNat / 8 % 64 :=
      shiftLeft_or_shiftRight_eq 2 hlt
    exact exec_two_adds hwf ha hfits (by rw [Address.fields, accessoryFields_eq, hhigh])
      (by omega) (by omega) (by decide) (by decide)
  · obtain ⟨hrange, hfits, rfl⟩ := eq_packed_of_exec_addaOf (a := .signal n) ha h ht
    have hlt : n.toNat < 2 ^ 11 := (of_decide_eq_true hrange).trans_le hsig
    have hhigh : 0x80 ||| n.toNat >>> 5 = 0x80 + n.toNat / 32 % 64 :=
      shiftLeft_or_shiftRight_eq 2 hlt
    have hlow := signal_low_byte_eq n.toNat
    have hfields : (Address.signal n).fields s.config =
        [{ value := 0x80 ||| n.toNat >>> 5, len := 8 },
          { value := (n.toNat / 4 % 8) <<< 4 ||| (n.toNat &&& 3) <<< 1 ||| 1, len := 8 }] := by
      rw [Address.fields, signalFields_eq, toNat_signalMid, hmid, hhigh, hlow]
      rfl
    exact exec_two_adds hwf ha hfits hfields (by omega) (by omega) (by decide) (by decide)

end Sys2Proof.Machine
end

section
/-! The words that the address commands leave in eight-bit words from a word boundary
(42_address_encoder.md section 3). -/

namespace Sys2Proof.Machine

variable {s : State}

/-! ### Bytes and half bytes in eight-bit words -/

/-- A canonical store on a word boundary holds its completed words alone. -/
theorem Memory.eq_of_used_eq_zero {w : Nat} {m : Memory} (h : m.wf w) (h0 : m.used = 0) :
    m = { words := m.words, cur := 0, used := 0 } := by
  obtain ⟨-, -, hlt, hlow⟩ := h
  rw [h0, Nat.sub_zero, Nat.mod_eq_of_lt hlt] at hlow
  obtain ⟨words, cur, used⟩ := m
  dsimp only at *
  rw [hlow, h0]

theorem appendBits_byte (words : List Word) (x : Nat) :
    ({ words := words, cur := 0, used := 0 } : Memory).appendBits 8 x 8 =
      { words := words ++ [x % 256], cur := 0, used := 0 } := by
  simp [Memory.appendBits, Memory.appendLoop, Memory.placeSlice, sliceBits]

theorem appendBits_high_half (words : List Word) (x : Nat) :
    ({ words := words, cur := 0, used := 0 } : Memory).appendBits 8 x 4 =
      { words := words, cur := x % 16 * 16, used := 4 } := by
  simp [Memory.appendBits, Memory.appendLoop, Memory.placeSlice, sliceBits, Nat.shiftLeft_eq]

theorem appendBits_low_half (words : List Word) (y x : Nat) :
    ({ words := words, cur := y * 16, used := 4 } : Memory).appendBits 8 x 4 =
      { words := words ++ [y * 16 + x % 16], cur := 0, used := 0 } := by
  have hor : y <<< 4 + x % 16 = y <<< 4 ||| x % 16 :=
    Nat.shiftLeft_add_eq_or_of_lt (Nat.mod_lt x (by decide)) y
  rw [Nat.shiftLeft_eq] at hor
  simp [Memory.appendBits, Memory.appendLoop, Memory.placeSlice, sliceBits, hor]

/-- The field of eight bits with a given value. -/
def byteField (x : Nat) : Field := { value := x, len := 8 }

theorem totalBits_bytes (xs : List Nat) : totalBits (xs.map byteField) = 8 * xs.length := by
  induction xs with
  | nil => rfl
  | cons x xs ih =>
    rw [List.map_cons, totalBits_cons, ih, byteField, List.length_cons]
    exact Nat.add_comm 8 _

/-- Bytes pushed from a word boundary become words. -/
theorem appendFields_bytes {xs : List Nat} (hxs : ∀ x ∈ xs, x < 256) (words : List Word) :
    ({ words := words, cur := 0, used := 0 } : Memory).appendFields 8 (xs.map byteField) =
      { words := words ++ xs, cur := 0, used := 0 } := by
  induction xs generalizing words with
  | nil => simp
  | cons x xs ih =>
    rw [List.forall_mem_cons] at hxs
    rw [List.map_cons, Memory.appendFields_cons, byteField, appendBits_byte, ih hxs.2,
      Nat.mod_eq_of_lt hxs.1, List.append_assoc, List.singleton_append]

/-! ### An address command with room -/

theorem exec_addaOf_of_fits {a : Address} (ha : s.aborted = false) (h : ¬OutOfRange s.config a)
    (hfits : Fits s (totalBits (a.fields s.config))) :
    exec (addaOf a) s = .next (s.packed (a.fields s.config)) := by
  rw [exec_addaOf_of_live a ha, State.packAddress, State.checkAddress_of_not_outOfRange h,
    packFields_of_fits hfits]

/-- A class whose layout is made of bytes leaves them as words. -/
theorem exec_addaOf_extendsWords {a : Address} {xs : List Nat} (ha : s.aborted = false)
    (hw : s.config.wordBits = 8) (hmem : s.mem = { words := s.mem.words, cur := 0, used := 0 })
    (hrange : ¬OutOfRange s.config a) (hfields : a.fields s.config = xs.map byteField)
    (hxs : ∀ x ∈ xs, x < 256) (hfits : Fits s (8 * xs.length)) :
    ∃ t, exec (addaOf a) s = .next t ∧ ExtendsWords s xs t := by
  rw [← totalBits_bytes, ← hfields] at hfits
  refine ⟨_, exec_addaOf_of_fits ha hrange hfits, ?_⟩
  rw [ExtendsWords, State.packed, hw, hfields, hmem, appendFields_bytes hxs]

theorem totalBits_accessory (cfg : Config) (n : BitVec 29) :
    totalBits ((Address.accessory n).fields cfg) = 12 := by
  rw [Address.fields, accessoryFields_eq]
  rfl

/-- The fields of an accessory address leave a word and half a word. -/
theorem mem_packed_accessory {n : BitVec 29} (hw : s.config.wordBits = 8)
    (hmem : s.mem = { words := s.mem.words, cur := 0, used := 0 }) (hn : n.toNat ≤ 511) :
    (s.packed ((Address.accessory n).fields s.config)).mem =
      { words := s.mem.words ++ [0x80 + n.toNat / 8]
        cur := (15 - n.toNat % 8) * 16
        used := 4 } := by
  have hbyte : (0x80 + n.toNat / 8 % 64) % 256 = 0x80 + n.toNat / 8 := by omega
  have hhalf : (15 - n.toNat % 8) % 16 = 15 - n.toNat % 8 := by omega
  rw [State.packed_mem, Address.fields, accessoryFields_eq, hw, hmem, Memory.appendFields_cons,
    appendBits_byte, Memory.appendFields_cons, appendBits_high_half, Memory.appendFields_nil, hbyte,
    hhalf]

/-- Four more bits complete the half word. -/
theorem mem_packed_low_half {words : List Word} {y : Nat} (hw : s.config.wordBits = 8)
    (hmem : s.mem = { words := words, cur := y * 16, used := 4 }) (x : Nat) :
    (s.packed [{ value := x, len := 4 }]).mem =
      { words := words ++ [y * 16 + x % 16], cur := 0, used := 0 } := by
  rw [State.packed_mem, hw, hmem, Memory.appendFields_cons, appendBits_low_half,
    Memory.appendFields_nil]

/-- `ADDA.ACC` leaves a word and a half, and an `ADD` of four bits completes the half. -/
theorem exec_addaAcc_then_add {n : BitVec 29} (x : BitVec 64) (ha : s.aborted = false)
    (hwf : s.mem.wf s.config.wordBits) (hw : s.config.wordBits = 8) (hused : s.mem.used = 0)
    (hrange : ¬OutOfRange s.config (.accessory n)) (hn : n.toNat ≤ 511) (hfits : Fits s 16) :
    ∃ t u, exec (.addaAcc n) s = .next t ∧ t.bitsRem = 4 ∧
      t.results = s.results ++ [0x80 + n.toNat / 8, (15 - n.toNat % 8) * 16] ∧
      exec (.add .w8 x 4) t = .next u ∧ u.bitsRem = 0 ∧
      u.results = s.results ++
        [0x80 + n.toNat / 8, (15 - n.toNat % 8) * 16 + x.toNat % 16] := by
  have hresults : s.results = s.mem.words := Memory.results_of_used_eq_zero hused
  have htmem := mem_packed_accessory hw (Memory.eq_of_used_eq_zero hwf hused) hn
  have humem := mem_packed_low_half (s := s.packed _) hw htmem x.toNat
  have hboth : Fits s (totalBits ((Address.accessory n).fields s.config) + 4) := by
    rwa [totalBits_accessory]
  have hfirst := fits_of_le hboth (Nat.le_add_right _ 4)
  have hrest : Fits (s.packed ((Address.accessory n).fields s.config)) 4 := fits_packed hwf hboth
  have hadd : exec (.add .w8 x 4) (s.packed ((Address.accessory n).fields s.config)) =
      .next ((s.packed ((Address.accessory n).fields s.config)).packed
        [{ value := x.toNat, len := 4 }]) := by
    rw [exec_add_of_valid_length (s := s.packed _) x ha (by decide) (by decide)]
    exact congrArg Host.Outcome.next (packFields_of_fits (s := s.packed _) hrest)
  refine ⟨_, _, exec_addaOf_of_fits ha hrange hfirst, ?_, ?_, hadd, ?_, ?_⟩
  · rw [State.bitsRem, htmem, State.packed_config, hw]
    rfl
  · rw [State.results, htmem, hresults, Memory.results_of_used_pos (Nat.succ_pos 3),
      List.append_assoc]
    rfl
  · rw [State.bitsRem, humem]
    rfl
  · rw [State.results, humem, hresults, Memory.results_of_used_eq_zero rfl, List.append_assoc]
    rfl

/-- Settles O40: from a word boundary the bytes of a layout become words as they are; the accessory
class ends in half a byte. -/
theorem addressWordsFromAByteBoundary : Obligations.AddressWordsFromAByteBoundary := by
  rintro s n ⟨-, hwf, -⟩ ha hw ⟨hpri, hext, hacc, hsig, hmid⟩ hused hfits
  have hmem := Memory.eq_of_used_eq_zero hwf hused
  have hfits8 : Fits s 8 := fits_of_le hfits (by decide)
  refine ⟨?_, fun hn => ?_, fun hn => ?_, fun hn => ?_, fun hn x => ?_⟩
  · exact exec_addaOf_extendsWords (a := .broadcast) ha hw hmem not_false rfl (by simp) hfits8
  · have hrange : ¬OutOfRange s.config (.primary n) := by rw [OutOfRange, hpri]; omega
    have hfields : (Address.primary n).fields s.config = [n.toNat].map byteField := by
      rw [Address.fields, primaryFields_eq, Nat.mod_eq_of_lt (by omega : n.toNat < 128)]
      rfl
    exact exec_addaOf_extendsWords ha hw hmem hrange hfields (by simp; omega) hfits8
  · have hrange : ¬OutOfRange s.config (.extended n) := by rw [OutOfRange, hext]; omega
    have hfields : (Address.extended n).fields s.config =
        [0xC0 + n.toNat / 256, n.toNat % 256].map byteField := by
      rw [Address.fields, extendedFields_eq, Nat.mod_eq_of_lt (by omega : n.toNat / 256 < 64)]
      rfl
    exact exec_addaOf_extendsWords ha hw hmem hrange hfields (by simp; omega) hfits
  · have hrange : ¬OutOfRange s.config (.signal n) := by rw [OutOfRange, hsig]; omega
    have hfields : (Address.signal n).fields s.config =
        [0x80 + n.toNat / 32, n.toNat / 4 % 8 * 16 + n.toNat % 4 * 2 + 1].map byteField := by
      rw [Address.fields, signalFields_eq, toNat_signalMid, hmid,
        Nat.mod_eq_of_lt (by omega : n.toNat / 32 < 64)]
      rfl
    exact exec_addaOf_extendsWords ha hw hmem hrange hfields (by simp; omega) hfits
  · have hrange : ¬OutOfRange s.config (.accessory n) := by rw [OutOfRange, hacc]; omega
    exact exec_addaAcc_then_add x ha hwf hw hused hrange hn hfits

end Sys2Proof.Machine
end

section
/-! The order on addresses and `ACMP` (43_address_order_text.md R79 to R82). -/

namespace Sys2Proof.Machine

variable {s : State}

/-! ### The key of R81 -/

theorem payload_lt (a : Address) : a.payload < 2 ^ 29 := by
  cases a with
  | broadcast => decide
  | primary n | extended n | accessory n | signal n => exact n.isLt

theorem addressKey_eq (a : Address) : addressKey a = a.rank * 2 ^ 29 + a.payload := by
  cases a <;> rfl

/-- The key orders addresses by rank and then by payload. -/
theorem lt_iff_addressKey_lt (a b : Address) : a.lt b = true ↔ addressKey a < addressKey b := by
  have ha := payload_lt a
  have hb := payload_lt b
  rw [Address.lt, decide_eq_true_iff, addressKey_eq, addressKey_eq]
  omega

theorem eq_of_rank_eq_of_payload_eq {a b : Address} (hrank : a.rank = b.rank)
    (hpayload : a.payload = b.payload) : a = b := by
  match a, b with
  | .broadcast, .broadcast => rfl
  | .primary _, .primary _ => exact congrArg _ (BitVec.eq_of_toNat_eq hpayload)
  | .extended _, .extended _ => exact congrArg _ (BitVec.eq_of_toNat_eq hpayload)
  | .accessory _, .accessory _ => exact congrArg _ (BitVec.eq_of_toNat_eq hpayload)
  | .signal _, .signal _ => exact congrArg _ (BitVec.eq_of_toNat_eq hpayload)

theorem addressKey_inj {a b : Address} (h : addressKey a = addressKey b) : a = b := by
  have ha := payload_lt a
  have hb := payload_lt b
  rw [addressKey_eq, addressKey_eq] at h
  exact eq_of_rank_eq_of_payload_eq (by omega) (by omega)

/-! ### The comparison, by the keys -/

theorem compare_of_key_lt {a b : Address} (h : addressKey a < addressKey b) : a.compare b = .lt := by
  have hne : a ≠ b := fun hab => h.ne (congrArg addressKey hab)
  rw [Address.compare, if_neg hne, if_pos ((lt_iff_addressKey_lt a b).mpr h)]

theorem compare_of_key_gt {a b : Address} (h : addressKey b < addressKey a) : a.compare b = .gt := by
  have hne : a ≠ b := fun hab => h.ne' (congrArg addressKey hab)
  have hnlt : ¬a.lt b = true := (lt_iff_addressKey_lt a b).not.mpr h.asymm
  rw [Address.compare, if_neg hne, if_neg hnlt]

theorem compare_self (a : Address) : a.compare a = .eq := if_pos rfl

/-- The comparison is that of the keys. -/
theorem compare_iff_addressKey (a b : Address) :
    (a.compare b = .eq ↔ a = b) ∧ (a.compare b = .lt ↔ addressKey a < addressKey b) ∧
      (a.compare b = .gt ↔ addressKey b < addressKey a) := by
  rcases Nat.lt_trichotomy (addressKey a) (addressKey b) with h | h | h
  · have hne : a ≠ b := fun hab => h.ne (congrArg addressKey hab)
    simp [compare_of_key_lt h, h, h.le, hne]
  · obtain rfl := addressKey_inj h
    simp [compare_self]
  · have hne : a ≠ b := fun hab => h.ne' (congrArg addressKey hab)
    simp [compare_of_key_gt h, h, h.le, hne]

/-- Settles O43: through the keys the order is that of the natural numbers. -/
theorem comparisonIsAStrictTotalOrder : Obligations.ComparisonIsAStrictTotalOrder := by
  intro a b c
  obtain ⟨heq, hlt, -⟩ := compare_iff_addressKey a b
  obtain ⟨-, -, hgt⟩ := compare_iff_addressKey b a
  obtain ⟨-, hbc, -⟩ := compare_iff_addressKey b c
  obtain ⟨-, hac, -⟩ := compare_iff_addressKey a c
  refine ⟨heq, hlt.trans hgt.symm, fun h h' => hac.mpr ?_⟩
  exact (hlt.mp h).trans (hbc.mp h')

/-! ### `ACMP` -/

theorem exec_acmp_of_inRange {a b : Address} (hs : s.aborted = false) (ha : ¬OutOfRange s.config a)
    (hb : ¬OutOfRange s.config b) :
    exec (.acmp a b) s = .next (s.answer (Response.ok (a.compare b).bits)) := by
  refine congrArg Host.Outcome.next ((State.whenLive_of_live hs _).trans ?_)
  exact (State.checkAddress_of_not_outOfRange ha _).trans
    (State.checkAddress_of_not_outOfRange hb _)

/-- Settles O42: an operand out of range aborts (`outOfRangeAddressAbortsFirst`); two valid ones are
compared, and the comparison is that of their keys. -/
theorem acmpAnswersTheOrderOfTheKeys : Obligations.AcmpAnswersTheOrderOfTheKeys := by
  refine ⟨otherWordsAreIllegal_of_illegalWord fun c hop hadmits => ?_, fun a b =>
    ⟨fun aop bop => decode_commandWord_acmp, fun s hs => ⟨fun hout => ?_, fun ha hb => ?_⟩⟩⟩
  · unfold IllegalWord
    omega
  · refine outOfRangeAddressAbortsFirst (.acmp a b) s hs ?_
    simpa [addressOperands] using hout
  · refine ⟨_, exec_acmp_of_inRange hs ha hb, fun hab => ?_, fun hlt => ?_, fun hgt => ?_,
      addressKey_inj⟩
    · rw [hab, compare_self]
      rfl
    · rw [compare_of_key_lt hlt]
      rfl
    · rw [compare_of_key_gt hgt]
      rfl

end Sys2Proof.Machine
end

section
/-! The decimal text of an address and `ATXT` (43_address_order_text.md R84, R85). -/

namespace Sys2Proof.Machine

variable {s : State}

/-! ### The decimal digits -/

theorem decimalOf_of_lt {n : Nat} (h : n < 10) : decimalOf n = [n] := by
  unfold decimalOf
  split_ifs with h0
  · rw [h0]
  · rw [Nat.digits_of_lt 10 n h0 h, List.reverse_singleton]

theorem decimalOf_of_ge {n : Nat} (h : 10 ≤ n) : decimalOf n = decimalOf (n / 10) ++ [n % 10] := by
  have hn : n ≠ 0 := by omega
  have hdiv : n / 10 ≠ 0 := by omega
  rw [decimalOf, decimalOf, if_neg hn, if_neg hdiv, Nat.digits_def' (by decide) (by omega),
    List.reverse_cons]

/-- With fuel for all its digits the model's recursion is the decimal representation. -/
theorem decimalDigitsFuel_eq (fuel : Nat) :
    ∀ {n : Nat}, n < 10 ^ (fuel + 1) → decimalDigitsFuel (fuel + 1) n = decimalOf n := by
  induction fuel with
  | zero =>
    intro n h
    rw [Nat.zero_add, Nat.pow_one] at h
    rw [decimalDigitsFuel, if_pos h, decimalOf_of_lt h]
  | succ fuel ih =>
    intro n h
    rw [decimalDigitsFuel]
    split_ifs with hlt
    · rw [decimalOf_of_lt hlt]
    · rw [ih (Nat.div_lt_of_lt_mul (by rwa [← Nat.pow_succ'])), decimalOf_of_ge (n := n) (by omega)]

/-- Nine digits are enough for a payload. -/
theorem decimalDigits_toNat (n : BitVec 29) : decimalDigits n.toNat = decimalOf n.toNat :=
  decimalDigitsFuel_eq 8 (n.isLt.trans (by decide))

theorem lt_ten_of_mem_decimalOf {n d : Nat} (h : d ∈ decimalOf n) : d < 10 := by
  unfold decimalOf at h
  split_ifs at h
  · rw [List.mem_singleton.mp h]
    decide
  · exact Nat.digits_lt_base (by decide) (List.mem_reverse.mp h)

theorem length_decimalOf_pos (n : Nat) : 1 ≤ (decimalOf n).length := by
  unfold decimalOf
  split_ifs with h0
  · exact le_rfl
  · rw [List.length_reverse]
    exact List.length_pos_of_ne_nil (Nat.digits_ne_nil_iff_ne_zero.mpr h0)

theorem length_decimalOf_le {n k : Nat} (hk : 1 ≤ k) (h : n < 10 ^ k) :
    (decimalOf n).length ≤ k := by
  unfold decimalOf
  split_ifs
  · exact hk
  · rw [List.length_reverse]
    exact (Nat.digits_length_le_iff (by decide) n).mpr h

/-! ### The text layout of R48 -/

theorem toNat_textCell {digits : List Nat} (h : ∀ d ∈ digits, d < 10) (k : Nat) :
    (textCell digits k).toNat = if k < digits.length then 0x30 + digits.getD k 0 else 0 := by
  unfold textCell
  split
  · next d hd =>
    obtain ⟨hk, rfl⟩ := List.getElem?_eq_some_iff.mp hd
    have hdigit := h _ (List.getElem_mem hk)
    rw [if_pos hk, BitVec.toNat_ofNat, Nat.mod_eq_of_lt (by omega), List.getD_eq_getElem _ _ hk]
  · next hd =>
    rw [if_neg (List.getElem?_eq_none_iff.mp hd).not_gt]
    rfl

/-- The record of a text is its length and its five cells, a byte each. -/
theorem toNat_textData (digits : List Nat) :
    (textData digits).toNat = digits.length % 2 ^ 8 * 2 ^ 40 +
      (textCell digits 0).toNat * 2 ^ 32 + (textCell digits 1).toNat * 2 ^ 24 +
      (textCell digits 2).toNat * 2 ^ 16 + (textCell digits 3).toNat * 2 ^ 8 +
      (textCell digits 4).toNat := by
  rw [textData, toNat_append_eq_mul_add, toNat_append_eq_mul_add, toNat_append_eq_mul_add,
    toNat_append_eq_mul_add, toNat_append_eq_mul_add, BitVec.toNat_ofNat]
  omega

/-- One to five decimal digits are carried by their record. -/
theorem carriesText_textData {digits : List Nat} (hpos : 1 ≤ digits.length)
    (hle : digits.length ≤ 5) (hdigits : ∀ d ∈ digits, d < 10) :
    CarriesText (textData digits) digits := by
  have h0 := (textCell digits 0).isLt
  have h1 := (textCell digits 1).isLt
  have h2 := (textCell digits 2).isLt
  have h3 := (textCell digits 3).isLt
  have h4 := (textCell digits 4).isLt
  refine ⟨hpos, hle, ?_, fun k hk => ?_⟩
  · rw [toNat_extractLsb'_eq_div_mod, toNat_textData]
    omega
  · rw [toNat_extractLsb'_eq_div_mod, toNat_textData, ← toNat_textCell hdigits]
    match k, hk with
    | 0, _ | 1, _ | 2, _ | 3, _ | 4, _ => omega

theorem carriesText_primaryText {n : BitVec 29} (h : n.toNat ≤ 126) :
    CarriesText (textData (primaryText n)) (decimalOf n.toNat) := by
  have hlen : (decimalOf n.toNat).length ≤ 5 := length_decimalOf_le (by decide) (by omega)
  rw [primaryText, decimalDigits_toNat]
  exact carriesText_textData (length_decimalOf_pos _) hlen fun _ => lt_ten_of_mem_decimalOf

theorem carriesText_extendedText {n : BitVec 29} (h : n.toNat ≤ 10239) :
    CarriesText (textData (extendedText n)) ((decimalOf n.toNat).leftpad 4 0) := by
  have hlen : (decimalOf n.toNat).length ≤ 5 := length_decimalOf_le (by decide) (by omega)
  have htext : extendedText n = (decimalOf n.toNat).leftpad 4 0 := by
    rw [extendedText, decimalDigits_toNat]
    rfl
  rw [htext]
  refine carriesText_textData ?_ ?_ fun d hd => ?_
  · rw [List.length_leftpad]
    omega
  · rw [List.length_leftpad]
    omega
  · rcases List.mem_append.mp hd with hd | hd
    · rw [List.eq_of_mem_replicate hd]
      decide
    · exact lt_ten_of_mem_decimalOf hd

/-! ### The obligations on `ATXT` -/

/-- The `IllegalCommand` clause that the rules R84 and R85 share (R86). -/
theorem otherWordsAreIllegal_atxt :
    OtherWordsAreIllegal 6
      (fun sel z len _ tag => sel = 0 ∧ z = 0 ∧ len = 0 ∧ (tag = 1 ∨ tag = 2)) := by
  refine otherWordsAreIllegal_of_illegalWord fun c hop hadmits => ?_
  unfold IllegalWord
  omega

theorem exec_atxtPri_of_inRange {n : BitVec 29} (ha : s.aborted = false)
    (h : ¬OutOfRange s.config (.primary n)) :
    exec (.atxtPri n) s = .next (s.answer (Response.ok (textData (primaryText n)))) :=
  congrArg Host.Outcome.next
    ((State.whenLive_of_live ha _).trans (State.checkAddress_of_not_outOfRange h _))

theorem exec_atxtExt_of_inRange {n : BitVec 29} (ha : s.aborted = false)
    (h : ¬OutOfRange s.config (.extended n)) :
    exec (.atxtExt n) s = .next (s.answer (Response.ok (textData (extendedText n)))) :=
  congrArg Host.Outcome.next
    ((State.whenLive_of_live ha _).trans (State.checkAddress_of_not_outOfRange h _))

/-- Settles O44: the limit 127 divides the payloads into those that abort and those whose one to three
digits are answered. -/
theorem atxtPriAnswersThePlainDecimal : Obligations.AtxtPriAnswersThePlainDecimal := by
  refine ⟨otherWordsAreIllegal_atxt, fun n => ⟨fun hi aop h => decode_commandWord_atxt hi h,
    fun s ha hlimit => ?_⟩⟩
  have hrange : OutOfRange s.config (.primary n) ↔ 127 ≤ n.toNat := by rw [OutOfRange, hlimit]
  refine ⟨fun hn => ?_, fun hn => ?_⟩
  · exact outOfRangeAddressAbortsFirst (.atxtPri n) s ha ⟨_, .head _, hrange.mpr hn⟩
  · exact ⟨_, _, exec_atxtPri_of_inRange ha (hrange.not.mpr (by omega)), rfl,
      carriesText_primaryText hn⟩

/-- Settles O45: the limit 10240 divides the payloads into those that abort and those whose four or
five digits are answered. -/
theorem atxtExtAnswersThePaddedDecimal : Obligations.AtxtExtAnswersThePaddedDecimal := by
  refine ⟨otherWordsAreIllegal_atxt, fun n => ⟨fun hi aop h => decode_commandWord_atxt hi h,
    fun s ha hlimit => ?_⟩⟩
  have hrange : OutOfRange s.config (.extended n) ↔ 10240 ≤ n.toNat := by rw [OutOfRange, hlimit]
  refine ⟨fun hn => ?_, fun hn => ?_⟩
  · exact outOfRangeAddressAbortsFirst (.atxtExt n) s ha ⟨_, .head _, hrange.mpr hn⟩
  · exact ⟨_, _, exec_atxtExt_of_inRange ha (hrange.not.mpr (by omega)), rfl,
      carriesText_extendedText hn⟩

end Sys2Proof.Machine
end
